-- ==== Sys2Proof/Word.lean ====
section
/-! DEFINITION. The machine's word types: bytes of memory and of instructions, register numbers, and the three
register widths. -/

namespace Sys2Proof

/-- The unit of addressing is the 8-bit byte (20_memory.md R30). -/
abbrev Byte := BitVec 8

/-- A register number 0 to 7, the width of the `reg` and `rm` fields (30_encoding.md R53). -/
abbrev RegNum := BitVec 3

/-- The content of a general register, an offset, a linear address, the program counter (10_state.md R13, R19;
20_memory.md R30). -/
abbrev Dword := BitVec 32

/-- The content of an MMX technology register (10_state.md R10). -/
abbrev MmWord := BitVec 64

/-- The content of an XMM register (10_state.md R11). -/
abbrev XmmWord := BitVec 128

end Sys2Proof
end

