-- ==== Sys2Proof/Syntax.lean ====
section
/-! DEFINITION. The instructions: one constructor of `Instr` for each of the six rows of spec/opcode_table.json, with
the leading bytes, the destination register number and the source operand the encoding carries (00_scope.md R9,
30_encoding.md R50 to R61). A term holds every byte of its encoding, so that its length and its bytes follow from it. -/

namespace Sys2Proof

/-- The six segments a memory operand can lie in (10_state.md R18, 20_memory.md R32). -/
inductive Seg where
  | cs | ds | es | fs | gs | ss
deriving DecidableEq, Repr

/-- Element width: byte, word or doubleword (30_encoding.md R51). -/
inductive Width where
  | b | w | d
deriving DecidableEq, Repr

/-- Operand size: the 64-bit forms on MMX technology registers, the 128-bit forms on XMM registers
(30_encoding.md R52). -/
inductive OpSize where
  | s64 | s128
deriving DecidableEq, Repr

/-- Width of the effective address of a memory operand (00_scope.md R4, `AddrSize`). -/
inductive AddrSize where
  | a16 | a32
deriving DecidableEq, Repr

/-- A byte admitted before `0F`: the `66` byte, the address-size byte `67`, one of the six segment-override bytes
(30_encoding.md R52, R58). -/
inductive Lead where
  | opSize
  | addrSize
  | segment (s : Seg)
deriving DecidableEq, Repr

/-- Displacement of a 32-bit addressing form: none (`mod = 00`), one byte (`mod = 01`), four bytes (`mod = 10`)
(30_encoding.md R54). -/
inductive Disp32 where
  | none
  | d8 (d : Byte)
  | d32 (d : Dword)
deriving DecidableEq, Repr

/-- A memory operand with 32-bit addressing, one constructor per shape of 30_encoding.md R54. -/
inductive Addr32 where
  /-- `rm` other than 100: `reg32[rm]` plus the displacement. -/
  | based (rm : RegNum) (disp : Disp32)
  /-- `mod = 00`, `rm = 101`: `disp32` alone. -/
  | direct (d : Dword)
  /-- `rm = 100`: a SIB byte with a base register, plus the displacement. -/
  | sib (scale : BitVec 2) (index base : RegNum) (disp : Disp32)
  /-- `rm = 100`, `mod = 00`, SIB `base = 101`: no base register, a `disp32` follows the SIB byte. -/
  | sibNoBase (scale : BitVec 2) (index : RegNum) (d : Dword)
deriving DecidableEq, Repr

/-- Displacement of a 16-bit addressing form (30_encoding.md R56). -/
inductive Disp16 where
  | none
  | d8 (d : Byte)
  | d16 (d : BitVec 16)
deriving DecidableEq, Repr

/-- A memory operand with 16-bit addressing (30_encoding.md R56). -/
inductive Addr16 where
  /-- One of the eight register combinations, plus the displacement. -/
  | based (rm : RegNum) (disp : Disp16)
  /-- `mod = 00`, `rm = 110`: `disp16` alone. -/
  | direct (d : BitVec 16)
deriving DecidableEq, Repr

/-- The source operand, `mm/m64` or `xmm2/m128`: a register of the form's own file (`mod = 11`) or a memory operand
(30_encoding.md R53, R61). -/
inductive Src where
  | reg (r : RegNum)
  | mem32 (a : Addr32)
  | mem16 (a : Addr16)
deriving DecidableEq, Repr

/-- The six instruction forms, in the order of the opcode table. `lead` is the bytes before `0F` in the order they
stand, `dst` the destination register, `src` the source operand. -/
inductive Instr where
  /-- `0F 64 /r` PCMPGTB mm, mm/m64 (40_pcmpgt.md R72). -/
  | pcmpgtbMm (lead : List Lead) (dst : RegNum) (src : Src)
  /-- `66 0F 64 /r` PCMPGTB xmm1, xmm2/m128 (R73). -/
  | pcmpgtbXmm (lead : List Lead) (dst : RegNum) (src : Src)
  /-- `0F 65 /r` PCMPGTW mm, mm/m64 (R74). -/
  | pcmpgtwMm (lead : List Lead) (dst : RegNum) (src : Src)
  /-- `66 0F 65 /r` PCMPGTW xmm1, xmm2/m128 (R75). -/
  | pcmpgtwXmm (lead : List Lead) (dst : RegNum) (src : Src)
  /-- `0F 66 /r` PCMPGTD mm, mm/m64 (R76). -/
  | pcmpgtdMm (lead : List Lead) (dst : RegNum) (src : Src)
  /-- `66 0F 66 /r` PCMPGTD xmm1, xmm2/m128 (R77). -/
  | pcmpgtdXmm (lead : List Lead) (dst : RegNum) (src : Src)
deriving DecidableEq, Repr

/-- The bytes before `0F`. -/
def Instr.lead : Instr → List Lead
  | .pcmpgtbMm l _ _ => l
  | .pcmpgtbXmm l _ _ => l
  | .pcmpgtwMm l _ _ => l
  | .pcmpgtwXmm l _ _ => l
  | .pcmpgtdMm l _ _ => l
  | .pcmpgtdXmm l _ _ => l

/-- The destination register number (first operand). -/
def Instr.dst : Instr → RegNum
  | .pcmpgtbMm _ d _ => d
  | .pcmpgtbXmm _ d _ => d
  | .pcmpgtwMm _ d _ => d
  | .pcmpgtwXmm _ d _ => d
  | .pcmpgtdMm _ d _ => d
  | .pcmpgtdXmm _ d _ => d

/-- The source operand (second operand). -/
def Instr.src : Instr → Src
  | .pcmpgtbMm _ _ r => r
  | .pcmpgtbXmm _ _ r => r
  | .pcmpgtwMm _ _ r => r
  | .pcmpgtwXmm _ _ r => r
  | .pcmpgtdMm _ _ r => r
  | .pcmpgtdXmm _ _ r => r

/-- The element width the second opcode byte selects (30_encoding.md R51). -/
def Instr.width : Instr → Width
  | .pcmpgtbMm _ _ _ => .b
  | .pcmpgtbXmm _ _ _ => .b
  | .pcmpgtwMm _ _ _ => .w
  | .pcmpgtwXmm _ _ _ => .w
  | .pcmpgtdMm _ _ _ => .d
  | .pcmpgtdXmm _ _ _ => .d

/-- The operand size of the form (30_encoding.md R52). -/
def Instr.size : Instr → OpSize
  | .pcmpgtbMm _ _ _ => .s64
  | .pcmpgtbXmm _ _ _ => .s128
  | .pcmpgtwMm _ _ _ => .s64
  | .pcmpgtwXmm _ _ _ => .s128
  | .pcmpgtdMm _ _ _ => .s64
  | .pcmpgtdXmm _ _ _ => .s128

/-- The form with the given operand size and element width (00_scope.md R9: `PCMPGT(width, size, dst, src)`). -/
def Instr.form (size : OpSize) (width : Width) (lead : List Lead) (dst : RegNum) (src : Src) : Instr :=
  match size, width with
  | .s64, .b => .pcmpgtbMm lead dst src
  | .s128, .b => .pcmpgtbXmm lead dst src
  | .s64, .w => .pcmpgtwMm lead dst src
  | .s128, .w => .pcmpgtwXmm lead dst src
  | .s64, .d => .pcmpgtdMm lead dst src
  | .s128, .d => .pcmpgtdXmm lead dst src

/-- Why the decoder gives a byte string no meaning (30_encoding.md R59). Every one is a refusal of the model, which is
safe: a claim about a program that holds such a string cannot be proved. -/
inductive Reject where
  /-- `F0` before the opcode. -/
  | lockByte
  /-- `F2` or `F3` before the opcode. -/
  | repeatByte (b : Byte)
  /-- A second `66`. -/
  | second66
  /-- A second `67`. -/
  | second67
  /-- Two segment-override bytes. -/
  | secondOverride
  /-- Any other byte where a leading byte or `0F` should stand. -/
  | foreignByte (b : Byte)
  /-- `0F` followed by a byte other than `64`, `65`, `66`: not one of this group. -/
  | notThisGroup (b : Byte)
  /-- The bytes run past the end of the program text. -/
  | truncated
deriving DecidableEq, Repr

end Sys2Proof
end

