-- ==== Sys2Proof/Config.lean ====
section
/-! DEFINITION. The parameters of a launch, which no step changes (00_scope.md R4, 10_state.md R22, 70_reset_and_hazards.md
R123), and the free values the spec leaves open. State holds the parameters as its field `cfg`, so that a statement about
every state is a statement about every value of every parameter. -/

namespace Sys2Proof

/-- The three operating modes the source names (10_state.md R21). -/
inductive Mode where
  | protectedMode | realAddress | virtual8086
deriving DecidableEq, Repr

/-- The CPUID signatures of the timing table's columns (00_scope.md R4, 70_reset_and_hazards.md R126). -/
inductive CpuSignature where
  | sig0F3n | sig0F2n | sig069n | other
deriving DecidableEq, Repr

/-- An error code. The layout of the page fault's is not in the source; the model carries it and never inspects it
(20_memory.md R40, 93_implementation_defined.md U1). -/
abbrev FaultCode := Nat

/-- Linear addresses `first` to `last`, both included. -/
structure Region where
  first : Nat
  last : Nat
deriving DecidableEq, Repr

/-- One row of the paging verdict `Translate(lin, n)` written out as data, with the code a read it applies to reports
(20_memory.md R40). Rows `reads` alone express every function of `lin` and `n`. -/
inductive PageFault where
  /-- A page that faults: every read with a byte in `bytes`. -/
  | page (bytes : Region) (code : FaultCode)
  /-- A verdict on whole reads: those of exactly `n` bytes whose linear address is in `starts`. -/
  | reads (starts : Region) (n : Nat) (code : FaultCode)
deriving DecidableEq, Repr

/-- The code a row of the paging verdict reports. -/
def PageFault.code : PageFault → FaultCode
  | .page _ code => code
  | .reads _ _ code => code

/-- The launch parameters. -/
structure Config where
  /-- `SSE2`: the processor is SSE2 capable, else only MMX technology capable (R4). -/
  sse2 : Bool
  /-- `Mode`, fixed for a run (R4, R21). -/
  mode : Mode
  /-- `AddrSize`, the code segment's default in Protected mode (R4, 30_encoding.md R58). -/
  addrSize : AddrSize
  /-- `CpuSignature`: selects a column of the timing table and nothing else (R4, R127). -/
  cpuSignature : CpuSignature
  /-- `MF_OUTSIDE_PROTECTED`, default true (60_exceptions.md R96). -/
  mfOutsideProtected : Bool
  /-- `Translate`: the reads that page-fault; a read no row applies to is Ok (R4, 20_memory.md R40). -/
  pageFaults : List PageFault
  /-- The linear addresses that hold memory (20_memory.md R49). -/
  ram : List Region
  /-- Addresses whose read has side effects; premise `OrdinaryMemory` keeps operands out (R46, R123). -/
  devices : List Region
  /-- Segments that are expand-down, null or not readable; premise `PlainSegments` keeps operands out (R37, R123). -/
  nonPlain : List Seg
  /-- Premise `NoAlignmentCheck` (R38, R123). -/
  noAlignmentCheck : Bool
  /-- Premise `SingleWriter` (R42, R43, R47, R123). -/
  singleWriter : Bool
  /-- Premise `TextFetchable` (R47, R123). -/
  textFetchable : Bool
  /-- Premise `NoDebug` (R117, R123). -/
  noDebug : Bool
  /-- Premise `NoInterrupts` (R111, R123). -/
  noInterrupts : Bool
deriving DecidableEq, Repr

/-- The launch that 95_test_vectors.md section 2.4 sets up (Protected mode, 32-bit addressing, no page faults) with the
premises of R123 holding, every linear address holding memory and the processor SSE2 capable. DESIGN CHOICE, unsafe
(notes/assumptions/1.md): the spec gives no value to any launch parameter. -/
def Config.reset : Config where
  sse2 := true
  mode := .protectedMode
  addrSize := .a32
  cpuSignature := .other
  mfOutsideProtected := true
  pageFaults := []
  ram := [⟨0, 0xFFFFFFFF⟩]
  devices := []
  nonPlain := []
  noAlignmentCheck := true
  singleWriter := true
  textFetchable := true
  noDebug := true
  noInterrupts := true

/-- FREE VALUE. Which of #SS(0) and #GP(0) is reported when an SS operand of a 128-bit form is both out of limit and
misaligned in Protected mode: true for the segment's fault (20_memory.md R36, 93_implementation_defined.md U3;
notes/assumptions/5.md). Its argument is the draw number, `State.draws`. -/
opaque Config.freeReport : Nat → Bool

/-- FREE VALUE. Which of several page faults is reported (20_memory.md R40, U4; notes/assumptions/6.md). Its arguments are
the launch's rows, the linear address and the size of the read, so that the verdict is a function of the launch. -/
opaque Config.freePage : List PageFault → Dword → Nat → Nat

/-- FREE VALUE. The x87 tags after a completed 64-bit form (10_state.md R17, U6; notes/assumptions/7.md). -/
opaque Config.freeX87Tags : Nat → BitVec 8

/-- FREE VALUE. The x87 stack top after a completed 64-bit form (R17, U6). -/
opaque Config.freeX87Top : Nat → BitVec 3

/-- FREE VALUE. Bits 79 to 64 of x87 data register `r` after a completed 64-bit form (R17, U6): draw number, then `r`. -/
opaque Config.freeX87High : Nat → Nat → BitVec 16

end Sys2Proof
end

