-- ==== Sys2Proof/Machine/Encoding.lean ====
section
/-! DEFINITION. The bytes of the encoding and the fields inside them, each said once: leading bytes, opcode bytes, the
ModRM and SIB bytes, little-endian displacements, the effective address size and the length (30_encoding.md R51 to R60).
The decoder, the encoder and WellFormed call these. -/

namespace Sys2Proof

/-- The byte of a leading byte (30_encoding.md R52, R58). -/
def leadByte : Lead → Byte
  | .opSize => 0x66#8
  | .addrSize => 0x67#8
  | .segment .cs => 0x2E#8
  | .segment .ss => 0x36#8
  | .segment .ds => 0x3E#8
  | .segment .es => 0x26#8
  | .segment .fs => 0x64#8
  | .segment .gs => 0x65#8

/-- The leading byte a byte is, if it is one of the eight that R52 and R58 admit. -/
def leadOf (b : Byte) : Option Lead :=
  if b = 0x66#8 then some .opSize
  else if b = 0x67#8 then some .addrSize
  else if b = 0x2E#8 then some (.segment .cs)
  else if b = 0x36#8 then some (.segment .ss)
  else if b = 0x3E#8 then some (.segment .ds)
  else if b = 0x26#8 then some (.segment .es)
  else if b = 0x64#8 then some (.segment .fs)
  else if b = 0x65#8 then some (.segment .gs)
  else none

/-- Whether a leading byte is a segment override. -/
def isOverride : Lead → Bool
  | .segment _ => true
  | .opSize => false
  | .addrSize => false

/-- The segment an override byte among the leading bytes names, if there is one (R58). -/
def overrideOf : List Lead → Option Seg
  | [] => none
  | .segment s :: _ => some s
  | .opSize :: ls => overrideOf ls
  | .addrSize :: ls => overrideOf ls

/-- The second opcode byte of an element width (R51). -/
def opcodeByte : Width → Byte
  | .b => 0x64#8
  | .w => 0x65#8
  | .d => 0x66#8

/-- The element width a second opcode byte selects, if it is one of this group (R51). -/
def widthOf (b : Byte) : Option Width :=
  if b = 0x64#8 then some .b
  else if b = 0x65#8 then some .w
  else if b = 0x66#8 then some .d
  else none

/-- The ModRM byte: `mod` in bits 7:6, `reg` in bits 5:3, `rm` in bits 2:0 (R53). The SIB byte has the same cut:
`scale`, `index`, `base` (R54). -/
def packFields (hi : BitVec 2) (mid lo : RegNum) : Byte := hi ++ mid ++ lo

/-- Bits 7:6 of a ModRM or SIB byte. -/
def fieldHi (b : Byte) : BitVec 2 := b.extractLsb' 6 2

/-- Bits 5:3 of a ModRM or SIB byte. -/
def fieldMid (b : Byte) : RegNum := b.extractLsb' 3 3

/-- Bits 2:0 of a ModRM or SIB byte. -/
def fieldLo (b : Byte) : RegNum := b.extractLsb' 0 3

/-- A 16-bit displacement's bytes, least significant first (R56). -/
def le16 (d : BitVec 16) : List Byte := [d.extractLsb' 0 8, d.extractLsb' 8 8]

/-- A 32-bit displacement's bytes, least significant first (R54). -/
def le32 (d : Dword) : List Byte := [d.extractLsb' 0 8, d.extractLsb' 8 8, d.extractLsb' 16 8, d.extractLsb' 24 8]

/-- The other address size (R58). -/
def otherAddrSize : AddrSize → AddrSize
  | .a16 => .a32
  | .a32 => .a16

/-- The mode's default address size: 16 in RealAddress and Virtual8086 mode, the parameter `AddrSize` in Protected
mode (R58). -/
def defaultAddrSize (c : Config) : AddrSize :=
  match c.mode with
  | .protectedMode => c.addrSize
  | .realAddress => .a16
  | .virtual8086 => .a16

/-- The address size of an instruction: the default, or the other one when a `67` byte stands before `0F` (R58). -/
def addrSizeFor (c : Config) (lead : List Lead) : AddrSize :=
  if Lead.addrSize ∈ lead then otherAddrSize (defaultAddrSize c) else defaultAddrSize c

/-- The operand size of an instruction: 128 when a `66` byte stands before `0F` on an SSE2 capable processor, else 64
(R52, R57, R61). -/
def opSizeFor (c : Config) (lead : List Lead) : OpSize :=
  if Lead.opSize ∈ lead ∧ c.sse2 = true then .s128 else .s64

/-- `S + D` of R60 for a source operand: the SIB byte and the displacement bytes. -/
def srcTail : Src → Nat
  | .reg _ => 0
  | .mem32 (.based _ .none) => 0
  | .mem32 (.based _ (.d8 _)) => 1
  | .mem32 (.based _ (.d32 _)) => 4
  | .mem32 (.direct _) => 4
  | .mem32 (.sib _ _ _ .none) => 1
  | .mem32 (.sib _ _ _ (.d8 _)) => 1 + 1
  | .mem32 (.sib _ _ _ (.d32 _)) => 1 + 4
  | .mem32 (.sibNoBase _ _ _) => 1 + 4
  | .mem16 (.based _ .none) => 0
  | .mem16 (.based _ (.d8 _)) => 1
  | .mem16 (.based _ (.d16 _)) => 2
  | .mem16 (.direct _) => 2

/-- The instruction length in bytes, `P + 2 + 1 + S + D` (R60). -/
def lengthOf (lead : List Lead) (src : Src) : Nat := lead.length + 2 + 1 + srcTail src

end Sys2Proof
end

