-- ==== Sys2Proof/WellFormed.lean ====
section
/-! DEFINITION. Which terms of `Instr` are instructions: those the encoding can express under a launch's `SSE2`, `Mode`
and `AddrSize` (30_encoding.md R52 to R61). -/

namespace Sys2Proof

/-- At most one `66`, one `67` and one segment-override byte (30_encoding.md R58, R59). -/
def leadsOk (lead : List Lead) : Bool :=
  decide (lead.count .opSize ≤ 1) && decide (lead.count .addrSize ≤ 1) && decide (lead.countP isOverride ≤ 1)

/-- The shapes of R54: `rm = 100` means a SIB byte, and `mod = 00` with `rm = 101` or SIB `base = 101` means no base. -/
def addr32Ok : Addr32 → Bool
  | .based rm .none => decide (rm ≠ 4#3) && decide (rm ≠ 5#3)
  | .based rm (.d8 _) => decide (rm ≠ 4#3)
  | .based rm (.d32 _) => decide (rm ≠ 4#3)
  | .direct _ => true
  | .sib _ _ base .none => decide (base ≠ 5#3)
  | .sib _ _ _ (.d8 _) => true
  | .sib _ _ _ (.d32 _) => true
  | .sibNoBase _ _ _ => true

/-- The shapes of R56: `mod = 00` with `rm = 110` means `disp16` alone. -/
def addr16Ok : Addr16 → Bool
  | .based rm .none => decide (rm ≠ 6#3)
  | .based _ (.d8 _) => true
  | .based _ (.d16 _) => true
  | .direct _ => true

/-- The addressing form belongs to the instruction's address size (R58) and has one of its shapes. -/
def srcOk (c : Config) (lead : List Lead) : Src → Bool
  | .reg _ => true
  | .mem32 a => decide (addrSizeFor c lead = .a32) && addr32Ok a
  | .mem16 a => decide (addrSizeFor c lead = .a16) && addr16Ok a

/-- The instruction's operand size is the one its leading bytes and `SSE2` select (R52, R57). -/
def sizeOk (c : Config) (i : Instr) : Bool := decide (opSizeFor c i.lead = i.size)

/-- Every check at once. -/
def Instr.wellFormed (c : Config) (i : Instr) : Bool := leadsOk i.lead && sizeOk c i && srcOk c i.lead i.src

/-- `i` is an instruction of a launch with parameters `c`. -/
abbrev WellFormed (c : Config) (i : Instr) : Prop := i.wellFormed c = true

end Sys2Proof
end

