-- ==== Sys2Proof/Decode.lean ====
section
/-! DEFINITION. The decoder, total on any bytes and rejecting by name, and the encoder written from the same tables
(30_encoding.md R50 to R61), with the host's reading of one word of spec/opcode_table.json. -/

namespace Sys2Proof

/-- What a decoder of part of an instruction answers: what it read and the bytes left, or why it refuses. -/
abbrev Parse (α : Type) := Except Reject (α × List Byte)

/-- The admitted leading bytes at the front, and what follows them (R60). -/
def takeLeads : List Byte → List Lead × List Byte
  | [] => ([], [])
  | b :: bs =>
    match leadOf b with
    | some l => (l :: (takeLeads bs).1, (takeLeads bs).2)
    | none => ([], b :: bs)

/-- Why a list of leading bytes is refused, if it is (R59). -/
def leadsReject (lead : List Lead) : Option Reject :=
  if 1 < lead.count .opSize then some .second66
  else if 1 < lead.count .addrSize then some .second67
  else if 1 < lead.countP isOverride then some .secondOverride
  else none

/-- Why a byte that is no admitted leading byte is refused where `0F` should stand (R59). -/
def foreignReject (b : Byte) : Reject :=
  if b = 0xF0#8 then .lockByte
  else if b = 0xF2#8 ∨ b = 0xF3#8 then .repeatByte b
  else .foreignByte b

/-- One byte of displacement. -/
def take8 {α : Type} (f : Byte → α) : List Byte → Parse α
  | b :: bs => .ok (f b, bs)
  | [] => .error .truncated

/-- Two bytes of displacement, least significant first (R56). -/
def take16 {α : Type} (f : BitVec 16 → α) : List Byte → Parse α
  | b0 :: b1 :: bs => .ok (f (b1 ++ b0), bs)
  | _ => .error .truncated

/-- Four bytes of displacement, least significant first (R54). -/
def take32 {α : Type} (f : Dword → α) : List Byte → Parse α
  | b0 :: b1 :: b2 :: b3 :: bs => .ok (f (b3 ++ b2 ++ b1 ++ b0), bs)
  | _ => .error .truncated

/-- The SIB byte's operand (R54, rows with `rm = 100`). -/
def decodeSib (mod : BitVec 2) (sib : Byte) (bs : List Byte) : Parse Src :=
  if mod = 0#2 then
    if fieldLo sib = 5#3 then take32 (fun d => .mem32 (.sibNoBase (fieldHi sib) (fieldMid sib) d)) bs
    else .ok (.mem32 (.sib (fieldHi sib) (fieldMid sib) (fieldLo sib) .none), bs)
  else if mod = 1#2 then
    take8 (fun d => .mem32 (.sib (fieldHi sib) (fieldMid sib) (fieldLo sib) (.d8 d))) bs
  else take32 (fun d => .mem32 (.sib (fieldHi sib) (fieldMid sib) (fieldLo sib) (.d32 d))) bs

/-- The memory operand with 32-bit addressing (R54). -/
def decodeMem32 (mod : BitVec 2) (rm : RegNum) (bs : List Byte) : Parse Src :=
  if rm = 4#3 then
    match bs with
    | [] => .error .truncated
    | sib :: rest => decodeSib mod sib rest
  else if mod = 0#2 then
    if rm = 5#3 then take32 (fun d => .mem32 (.direct d)) bs
    else .ok (.mem32 (.based rm .none), bs)
  else if mod = 1#2 then take8 (fun d => .mem32 (.based rm (.d8 d))) bs
  else take32 (fun d => .mem32 (.based rm (.d32 d))) bs

/-- The memory operand with 16-bit addressing (R56). -/
def decodeMem16 (mod : BitVec 2) (rm : RegNum) (bs : List Byte) : Parse Src :=
  if mod = 0#2 then
    if rm = 6#3 then take16 (fun d => .mem16 (.direct d)) bs
    else .ok (.mem16 (.based rm .none), bs)
  else if mod = 1#2 then take8 (fun d => .mem16 (.based rm (.d8 d))) bs
  else take16 (fun d => .mem16 (.based rm (.d16 d))) bs

/-- The source operand that `mod`, `rm` and the address size select (R53, R60, R61). -/
def decodeSrc (size : AddrSize) (mod : BitVec 2) (rm : RegNum) (bs : List Byte) : Parse Src :=
  if mod = 3#2 then .ok (.reg rm, bs)
  else
    match size with
    | .a16 => decodeMem16 mod rm bs
    | .a32 => decodeMem32 mod rm bs

/-- The second opcode byte, the ModRM byte and what it calls for (R51, R53, R61). -/
def decodeOpcode (c : Config) (lead : List Lead) : List Byte → Parse Instr
  | [] => .error .truncated
  | op :: bs =>
    match widthOf op with
    | none => .error (.notThisGroup op)
    | some width =>
      match bs with
      | [] => .error .truncated
      | modrm :: rest =>
        match decodeSrc (addrSizeFor c lead) (fieldHi modrm) (fieldLo modrm) rest with
        | .error e => .error e
        | .ok (src, rest') => .ok (Instr.form (opSizeFor c lead) width lead (fieldMid modrm) src, rest')

/-- The instruction at the front of a byte string, and the bytes after it (R60: leading bytes, `0F`, second opcode byte,
ModRM, then what ModRM calls for). -/
def decode (c : Config) (bytes : List Byte) : Parse Instr :=
  match leadsReject (takeLeads bytes).1 with
  | some e => .error e
  | none =>
    match (takeLeads bytes).2 with
    | [] => .error .truncated
    | b :: bs => if b = 0x0F#8 then decodeOpcode c (takeLeads bytes).1 bs else .error (foreignReject b)

/-- The ModRM byte and the bytes after it, for destination `reg` and a source operand (R53, R54, R56). -/
def encodeSrc (reg : RegNum) : Src → List Byte
  | .reg r => [packFields 3#2 reg r]
  | .mem32 (.based rm .none) => [packFields 0#2 reg rm]
  | .mem32 (.based rm (.d8 d)) => [packFields 1#2 reg rm, d]
  | .mem32 (.based rm (.d32 d)) => packFields 2#2 reg rm :: le32 d
  | .mem32 (.direct d) => packFields 0#2 reg 5#3 :: le32 d
  | .mem32 (.sib sc ix ba .none) => [packFields 0#2 reg 4#3, packFields sc ix ba]
  | .mem32 (.sib sc ix ba (.d8 d)) => [packFields 1#2 reg 4#3, packFields sc ix ba, d]
  | .mem32 (.sib sc ix ba (.d32 d)) => packFields 2#2 reg 4#3 :: packFields sc ix ba :: le32 d
  | .mem32 (.sibNoBase sc ix d) => packFields 0#2 reg 4#3 :: packFields sc ix 5#3 :: le32 d
  | .mem16 (.based rm .none) => [packFields 0#2 reg rm]
  | .mem16 (.based rm (.d8 d)) => [packFields 1#2 reg rm, d]
  | .mem16 (.based rm (.d16 d)) => packFields 2#2 reg rm :: le16 d
  | .mem16 (.direct d) => packFields 0#2 reg 6#3 :: le16 d

/-- The bytes of an instruction at increasing addresses (R50, R60). -/
def encode (i : Instr) : List Byte :=
  i.lead.map leadByte ++ 0x0F#8 :: opcodeByte i.width :: encodeSrc i.dst i.src

/-- The longest admitted form has 11 bytes (R60). -/
def maxLength : Nat := 11

/-- `n` bytes of a number, its least significant byte last: the first byte is the most significant, as R64 numbers the
words of spec/opcode_table.json. -/
def bytesBE (w : Nat) : Nat → List Byte
  | 0 => []
  | n + 1 => BitVec.ofNat 8 (w / 256 ^ n) :: bytesBE w n

/-- `n` bytes of a number, its least significant byte first. -/
def bytesLE (w : Nat) : Nat → List Byte
  | 0 => []
  | n + 1 => BitVec.ofNat 8 w :: bytesLE (w / 256) n

/-- Whether bytes begin as a row of the opcode table does: `0F`, or `66 0F`, and one of `64`, `65`, `66` (R64). -/
def beginsRow : List Byte → Bool
  | b0 :: b1 :: b2 :: _ =>
    (decide (b0 = 0x0F#8) && (widthOf b1).isSome) || (decide (b0 = 0x66#8) && decide (b1 = 0x0F#8) && (widthOf b2).isSome)
  | _ => false

/-- The bytes of an instruction whose first `nbits` bits are the number `w`, then zeros up to the longest instruction.
R64 numbers a row's bits with the FIRST byte MOST significant; a number that begins no row when read so is read with its
first byte least significant. DEDUCED (notes/assumptions/12.md). -/
def tableBytes (nbits w : Nat) : List Byte :=
  let n := (nbits + 7) / 8
  let front := if beginsRow (bytesBE w n) then bytesBE w n else bytesLE w n
  front ++ List.replicate (maxLength - n) 0

/-- The instruction the decoder reads, at the launch parameters of reset, from an instruction whose bits are `w`. -/
def decodeTableWord (nbits w : Nat) : Option Instr :=
  match decode Config.reset (tableBytes nbits w) with
  | .ok (i, _) => some i
  | .error _ => none

end Sys2Proof
end

