-- ==== Sys2Proof/Machine/State.lean ====
section
/-! DEFINITION. The machine's state as plain data, every piece of it that the spec names (10_state.md R10 to R25,
60_exceptions.md R103, R109, 70_reset_and_hazards.md R121), the reasons a step can stop, and the state after reset. -/

namespace Sys2Proof.Machine

/-- The six exceptions of 60_exceptions.md R90, the page fault with its error code. -/
inductive Exn where
  | ud
  | nm
  | mf
  | ss
  | gp
  | pf (code : FaultCode)
deriving DecidableEq, Repr

/-- The record `Fault(symbol, code, pc)` of a raised exception: symbol and code in `exn`, and the address of the
faulting instruction (60_exceptions.md R103, R109). -/
structure Raised where
  exn : Exn
  pc : Dword
deriving DecidableEq, Repr

/-- Why a step ends without a next state. Each is safe: the run stops, so no claim about a later state follows. -/
inductive Fault where
  /-- Raised by `step` in a state that already holds a raised exception: the faulted state is never left
  (60_exceptions.md R109). Safe: the spec's own outcome. -/
  | raised (r : Raised)
  /-- Raised by `step` when `pc` is one past the last byte of the text: the end of the run as 70_reset_and_hazards.md
  R121 defines it. Safe: the chip goes on, the model says nothing of it. -/
  | endOfRun
  /-- Raised by `step` when `pc` is neither in the text nor at its end: there is no instruction to fetch (20_memory.md
  R47). Safe. -/
  | pcOutsideText
  /-- Raised by a memory form whose operand has a byte that the launch memory does not hold; the operand's linear
  address (20_memory.md R49). Safe. -/
  | noMemory (lin : Dword)
deriving DecidableEq, Repr

/-- What the model gives no meaning. Each is safe: a claim about a refused run cannot be proved. -/
inductive Refusal where
  /-- Reserved for an arm of `exec` without a meaning; no arm uses it. Safe. -/
  | notModelled (mnemonic : String)
  /-- Raised by `step`: the bytes at `pc` are no admitted encoding (30_encoding.md R59). Safe. -/
  | undecodable (why : Reject)
  /-- Raised by `step`: the launch premise `NoAlignmentCheck` does not hold (20_memory.md R38, 70 R123). Safe. -/
  | alignmentCheckOn
  /-- Raised by `step`: the premise `SingleWriter` does not hold (20_memory.md R42, R43, R47). Safe. -/
  | otherWriters
  /-- Raised by `step`: the premise `TextFetchable` does not hold (20_memory.md R47). Safe. -/
  | textNotFetchable
  /-- Raised by `step`: the premise `NoDebug` does not hold (60_exceptions.md R117). Safe. -/
  | debugOn
  /-- Raised by `step`: the premise `NoInterrupts` does not hold (60_exceptions.md R111). Safe. -/
  | interruptsOn
  /-- Raised by `step`: the text crosses the code segment limit or `2^32` (10_state.md R19). Safe. -/
  | textOutOfRange
  /-- Raised by a memory form: the operand's segment is expand-down, null or not readable, which the premise
  `PlainSegments` excludes (20_memory.md R37). Safe. -/
  | segmentNotPlain (seg : Seg)
  /-- Raised by a memory form: the operand touches a region whose read has side effects, which the premise
  `OrdinaryMemory` excludes (20_memory.md R46); the operand's linear address. Safe. -/
  | deviceOperand (lin : Dword)
deriving DecidableEq, Repr

/-- A segment: the linear address of offset 0 and the largest legal offset (10_state.md R18). -/
structure Segment where
  base : Dword
  limit : Dword
deriving DecidableEq, Repr

/-- The six segments (10_state.md R18). -/
structure Segments where
  cs : Segment
  ds : Segment
  es : Segment
  fs : Segment
  gs : Segment
  ss : Segment
deriving DecidableEq, Repr

/-- The x87 bookkeeping a 64-bit form touches: one validity mark per x87 register, the stack top, and bits 79 to 64 of
the eight data registers (10_state.md R17). -/
structure X87 where
  tags : BitVec 8
  top : BitVec 3
  high : Vector (BitVec 16) 8
deriving DecidableEq, Repr

/-- Memory: bytes by linear address, addresses strictly rising, no entry equal to what an unlisted address reads as
(`Memory.wf`, in Machine/Memory.lean). -/
abbrev Memory := List Host.Cell

/-- The machine's state. -/
structure State where
  /-- The launch parameters, which no step changes (10_state.md R22). -/
  cfg : Config
  /-- mm0 to mm7 (R10). -/
  mm : Vector MmWord 8
  /-- xmm0 to xmm7 (R11). -/
  xmm : Vector XmmWord 8
  /-- EAX, ECX, EDX, EBX, ESP, EBP, ESI, EDI (R13). -/
  gpr : Vector Dword 8
  /-- EM in CR0 (R14). -/
  cr0em : Bool
  /-- TS in CR0 (R14). -/
  cr0ts : Bool
  /-- OSFXSR in CR4 (R14). -/
  cr4osfxsr : Bool
  /-- There is a pending x87 FPU exception (R16). -/
  x87pending : Bool
  /-- The x87 bookkeeping (R17). -/
  x87 : X87
  /-- The six segments (R18). -/
  segs : Segments
  /-- The offset in the code segment of the instruction being executed (R19). -/
  pc : Dword
  /-- Whatever flags state the embedding machine has, uninterpreted (R20). -/
  flags : Nat
  /-- Data memory (R22). -/
  mem : Memory
  /-- The program text (20_memory.md R47). -/
  text : List Byte
  /-- The code-segment offset of the first byte of the text (70_reset_and_hazards.md R121). -/
  textBase : Dword
  /-- The exception that ended the run, if one was raised (60_exceptions.md R109). -/
  fault : Option Raised
  /-- The model's own: the number of the next draw of free values. -/
  draws : Nat
deriving DecidableEq, Repr

/-- A flat segment: base 0 and the whole 32-bit offset space (95_test_vectors.md section 2.4). -/
def Segment.flat : Segment where
  base := 0
  limit := 0xFFFFFFFF

/-- The x87 bookkeeping after reset. DESIGN CHOICE, unsafe (notes/assumptions/7.md). -/
def X87.reset : X87 where
  tags := 0
  top := 0
  high := Vector.replicate 8 0

/-- The machine right after reset. The spec states no reset value (10_state.md R24, 70_reset_and_hazards.md R120); every
value is the model's: the launch of 95_test_vectors.md section 2.4 for the parameters, control bits and segments, zero
elsewhere. DESIGN CHOICE, unsafe (notes/assumptions/1.md). -/
def State.reset : State where
  cfg := Config.reset
  mm := Vector.replicate 8 0
  xmm := Vector.replicate 8 0
  gpr := Vector.replicate 8 0
  cr0em := false
  cr0ts := false
  cr4osfxsr := true
  x87pending := false
  x87 := X87.reset
  segs :=
    { cs := Segment.flat, ds := Segment.flat, es := Segment.flat,
      fs := Segment.flat, gs := Segment.flat, ss := Segment.flat }
  pc := 0
  flags := 0
  mem := []
  text := []
  textBase := 0
  fault := none
  draws := 0

end Sys2Proof.Machine
end

