-- ==== Sys2Proof/Machine/Exceptions.lean ====
section
/-! DEFINITION. What the spec says of each exception apart from its condition: symbol, name, vector number and error
code (60_exceptions.md R90, R103). An embedding machine with handlers is handed these (R109). -/

namespace Sys2Proof.Machine

/-- The source's symbol (60_exceptions.md R90). -/
def Exn.symbol : Exn → String
  | .ud => "#UD"
  | .nm => "#NM"
  | .mf => "#MF"
  | .ss => "#SS"
  | .gp => "#GP"
  | .pf _ => "#PF"

/-- The expansion of the symbol, marked general knowledge by the spec (R90, GK10). -/
def Exn.expansion : Exn → String
  | .ud => "invalid opcode"
  | .nm => "device not available"
  | .mf => "x87 floating-point error pending"
  | .ss => "stack-segment fault"
  | .gp => "general protection"
  | .pf _ => "page fault"

/-- The vector number, marked general knowledge by the spec (R90, GK10). -/
def Exn.vector : Exn → Nat
  | .ud => 6
  | .nm => 7
  | .mf => 16
  | .ss => 12
  | .gp => 13
  | .pf _ => 14

/-- The error code: none for #UD, #NM and #MF, 0 for #SS and #GP, the fault code for #PF (R90, R103). -/
def Exn.errorCode : Exn → Option FaultCode
  | .ud => none
  | .nm => none
  | .mf => none
  | .ss => some 0
  | .gp => some 0
  | .pf code => some code

end Sys2Proof.Machine
end

