-- ==== Sys2Proof/Machine/Flags.lean ====
section
/-! DEFINITION. The flag computation of the group: "Flags affected: None." (10_state.md R20, 40_pcmpgt.md R82). -/

namespace Sys2Proof.Machine

/-- The embedding machine's flags state after a form completes: what it was before (10_state.md R20). -/
def flagsAfter (flags : Nat) : Nat := flags

end Sys2Proof.Machine
end

