-- ==== Sys2Proof/Machine/Memory.lean ====
section
/-! DEFINITION. The operations over data memory: its canonical form, reading and writing one byte, the addresses of an
operand, and `MemRead` and `MemWrite` of 00_scope.md R7 (20_memory.md R30, R33, R41, R49). -/

namespace Sys2Proof.Machine

/-- What a byte of held memory that is not listed reads as. DESIGN CHOICE, unsafe (notes/assumptions/3.md). -/
def unlistedByte : Byte := 0

/-- The canonical form above a bound: addresses strictly rising from `lo`, each a 32-bit linear address, no entry equal
to what an unlisted address reads as. -/
def Memory.wfFrom (lo : Nat) : Memory → Bool
  | [] => true
  | (a, b) :: m => decide (lo ≤ a) && decide (a < 2 ^ 32) && decide (b ≠ unlistedByte) && Memory.wfFrom (a + 1) m

/-- The canonical form of a memory. -/
def Memory.wf (m : Memory) : Bool := Memory.wfFrom 0 m

/-- The byte listed at an address, or what an unlisted address reads as. -/
def Memory.read : Memory → Nat → Byte
  | [], _ => unlistedByte
  | (a, b) :: m, x => if a = x then b else Memory.read m x

/-- The memory with nothing listed at an address. -/
def Memory.erase : Memory → Nat → Memory
  | [], _ => []
  | (a, b) :: m, x => if a = x then m else (a, b) :: Memory.erase m x

/-- The memory with a byte listed at an address, in its place. -/
def Memory.insert : Memory → Nat → Byte → Memory
  | [], x, v => [(x, v)]
  | (a, b) :: m, x, v =>
    if x < a then (x, v) :: (a, b) :: m
    else if a = x then (x, v) :: m
    else (a, b) :: Memory.insert m x v

/-- One byte written; writing what an unlisted address reads as removes the entry. -/
def Memory.write (m : Memory) (x : Nat) (v : Byte) : Memory :=
  if v = unlistedByte then m.erase x else m.insert x v

/-- Whether an address lies in a region. -/
def regionHas (r : Region) (a : Nat) : Bool := decide (r.first ≤ a) && decide (a ≤ r.last)

/-- Whether the launch memory holds an address (20_memory.md R49). -/
def holds (c : Config) (a : Nat) : Bool := c.ram.any fun r => regionHas r a

/-- The byte of memory at a linear address, none where the launch holds no memory (20_memory.md R49). -/
def State.byteAt (s : State) (a : Nat) : Option Byte := if holds s.cfg a then some (s.mem.read a) else none

/-- The linear addresses `(lin + k) mod 2^32`, `k = 0 .. n-1`, of an n-byte operand (20_memory.md R41). -/
def operandAddrs (lin : Dword) (n : Nat) : List Nat := (List.range n).map fun k => (lin + BitVec.ofNat 32 k).toNat

/-- The bytes at the listed addresses as one vector, the first address in the lowest bits (20_memory.md R33); none if
one of them is not held. -/
def State.readLE (s : State) (w : Nat) : List Nat → Option (BitVec w)
  | [] => some 0
  | a :: as =>
    match s.byteAt a, s.readLE w as with
    | some b, some v => some (v <<< 8 ||| b.setWidth w)
    | _, _ => none

/-- `MemRead(lin, n)` as a `w`-bit vector, `w = 8n` (00_scope.md R7, 20_memory.md R41). It changes nothing. -/
def memRead (w : Nat) (s : State) (lin : Dword) (n : Nat) : Option (BitVec w) := s.readLE w (operandAddrs lin n)

/-- The memory with a vector's bytes stored at the listed addresses, its lowest byte first. -/
def Memory.writeLE {w : Nat} (m : Memory) : List Nat → BitVec w → Memory
  | [], _ => m
  | a :: as, v => Memory.writeLE (m.write a (v.setWidth 8)) as (v >>> 8)

/-- `MemWrite(lin, n, v)` (00_scope.md R7: defined for completeness; no rule uses it and no form calls it). It is how a
launch sets memory. -/
def State.memWrite {w : Nat} (s : State) (lin : Dword) (n : Nat) (v : BitVec w) : State :=
  { s with mem := s.mem.writeLE (operandAddrs lin n) v }

end Sys2Proof.Machine
end

