-- ==== Sys2Proof/Machine/Ops.lean ====
section
/-! DEFINITION. The named operations over the registers, and over the whole state: reading and writing each register
file, drawing the free values, completing a form, taking an exception, and what a handler that returns does. -/

namespace Sys2Proof.Machine

/-- `mm[i]` (00_scope.md R7). -/
def State.getMm (s : State) (i : RegNum) : MmWord := s.mm[i.toNat]'(i.isLt)

/-- `mm[i] <- v` (00_scope.md R7). No register is hardwired (10_state.md R10). -/
def State.setMm (s : State) (i : RegNum) (v : MmWord) : State := { s with mm := s.mm.set i.toNat v i.isLt }

/-- `xmm[i]` (00_scope.md R7). -/
def State.getXmm (s : State) (i : RegNum) : XmmWord := s.xmm[i.toNat]'(i.isLt)

/-- `xmm[i] <- v` (00_scope.md R7). No register is hardwired (10_state.md R11). -/
def State.setXmm (s : State) (i : RegNum) (v : XmmWord) : State := { s with xmm := s.xmm.set i.toNat v i.isLt }

/-- `reg32[i]` (30_encoding.md R54). -/
def State.reg32 (s : State) (i : RegNum) : Dword := s.gpr[i.toNat]'(i.isLt)

/-- The low 16 bits of `reg32[i]`: AX, CX, DX, BX, SP, BP, SI, DI (10_state.md R13). -/
def State.reg16 (s : State) (i : RegNum) : BitVec 16 := (s.reg32 i).setWidth 16

/-- A segment's base and limit (10_state.md R18). -/
def State.seg (s : State) : Seg → Segment
  | .cs => s.segs.cs
  | .ds => s.segs.ds
  | .es => s.segs.es
  | .fs => s.segs.fs
  | .gs => s.segs.gs
  | .ss => s.segs.ss

/-- The x87 bookkeeping that draw `n` gives: every part a free value (10_state.md R17, 93_implementation_defined.md U6;
notes/assumptions/7.md). -/
def freeX87 (n : Nat) : X87 where
  tags := Config.freeX87Tags n
  top := Config.freeX87Top n
  high := Vector.ofFn fun r => Config.freeX87High n r.val

/-- After a completed 64-bit form the x87 bookkeeping is unconstrained (10_state.md R17). -/
def State.drawX87 (s : State) : State := { s with x87 := freeX87 s.draws }

/-- The flags after a form completes. -/
def State.settleFlags (s : State) : State := { s with flags := flagsAfter s.flags }

/-- `pc <- pc + len` (10_state.md R19). -/
def State.advance (s : State) (len : Nat) : State := { s with pc := s.pc + BitVec.ofNat 32 len }

/-- The next draw of free values: every form that ends in a next state uses one. -/
def State.tick (s : State) : State := { s with draws := s.draws + 1 }

/-- The exception record set. -/
def State.record (s : State) (r : Raised) : State := { s with fault := some r }

/-- A 64-bit form completes: its destination is written, the x87 bookkeeping is free, `pc` advances, and nothing else
changes (10_state.md R23, 40_pcmpgt.md R71 steps 4 and 5). -/
def complete64 (d : RegNum) (r : MmWord) (len : Nat) (s : State) : State :=
  ((((s.setMm d r).drawX87).settleFlags).advance len).tick

/-- A 128-bit form completes: its destination is written, all 128 bits, `pc` advances, and nothing else changes; it
touches no x87 state (10_state.md R17, R23, 40_pcmpgt.md R71 steps 4 and 5). -/
def complete128 (d : RegNum) (r : XmmWord) (len : Nat) (s : State) : State :=
  (((s.setXmm d r).settleFlags).advance len).tick

/-- TAKING AN EXCEPTION, `raise #X(code)` (00_scope.md R7): `Fault(symbol, code, pc)` is recorded with the address of
the faulting instruction, no architectural state changes and `pc` stays (60_exceptions.md R103, R108, R109). The spec
describes no vector table, saved state or mode change; the recorded fault is terminal for `step`
(notes/assumptions/9.md). -/
def raise (e : Exn) (s : State) : State := (s.record ⟨e, s.pc⟩).tick

/-- A handler outside the model has dealt with the fault and starts the same form again: the record is gone and nothing
else changes (60_exceptions.md R110: no return instruction is in scope). No step calls it. -/
def State.clearRaised (s : State) : State := { s with fault := none }

end Sys2Proof.Machine
end

