-- ==== Sys2Proof/Machine/Operands.lean ====
section
/-! DEFINITION. The operand forms: effective addresses with 32-bit and 16-bit addressing, the default segment, the linear
address, and the checked read of a memory source operand with every exception it can raise (20_memory.md R33 to R41,
R46, R49; 30_encoding.md R54 to R56, R58). -/

namespace Sys2Proof.Machine

/-- A 32-bit form's displacement; `disp8` is sign-extended (30_encoding.md R54). -/
def disp32Value : Disp32 → Dword
  | .none => 0
  | .d8 d => d.signExtend 32
  | .d32 d => d

/-- `I` of R54: the scaled index, 0 when `index = 100`. -/
def sibIndex (s : State) (scale : BitVec 2) (index : RegNum) : Dword :=
  if index = 4#3 then 0 else s.reg32 index <<< scale.toNat

/-- The effective address with 32-bit addressing, modulo `2^32` (30_encoding.md R54). -/
def ea32 (s : State) : Addr32 → Dword
  | .based rm disp => s.reg32 rm + disp32Value disp
  | .direct d => d
  | .sib scale index base disp => s.reg32 base + sibIndex s scale index + disp32Value disp
  | .sibNoBase scale index d => sibIndex s scale index + d

/-- A 16-bit form's displacement; `disp8` is sign-extended (30_encoding.md R56). -/
def disp16Value : Disp16 → BitVec 16
  | .none => 0
  | .d8 d => d.signExtend 16
  | .d16 d => d

/-- The register part of a 16-bit form: BX+SI, BX+DI, BP+SI, BP+DI, SI, DI, BP, BX (30_encoding.md R56). -/
def base16 (s : State) (rm : RegNum) : BitVec 16 :=
  if rm = 0#3 then s.reg16 3#3 + s.reg16 6#3
  else if rm = 1#3 then s.reg16 3#3 + s.reg16 7#3
  else if rm = 2#3 then s.reg16 5#3 + s.reg16 6#3
  else if rm = 3#3 then s.reg16 5#3 + s.reg16 7#3
  else if rm = 4#3 then s.reg16 6#3
  else if rm = 5#3 then s.reg16 7#3
  else if rm = 6#3 then s.reg16 5#3
  else s.reg16 3#3

/-- The effective address with 16-bit addressing, modulo `2^16` (30_encoding.md R56). -/
def ea16 (s : State) : Addr16 → BitVec 16
  | .based rm disp => base16 s rm + disp16Value disp
  | .direct d => d

/-- The default segment with 32-bit addressing: SS when the base register is EBP or ESP, else DS (30_encoding.md R55). -/
def defaultSeg32 : Addr32 → Seg
  | .based rm _ => if rm = 5#3 then .ss else .ds
  | .direct _ => .ds
  | .sib _ _ base _ => if base = 4#3 ∨ base = 5#3 then .ss else .ds
  | .sibNoBase _ _ _ => .ds

/-- The default segment with 16-bit addressing: SS when the base register is BP, else DS (30_encoding.md R55). -/
def defaultSeg16 : Addr16 → Seg
  | .based rm _ => if rm = 2#3 ∨ rm = 3#3 ∨ rm = 6#3 then .ss else .ds
  | .direct _ => .ds

/-- The segment of a memory operand: the default, unless an override byte names another (30_encoding.md R55, R58). -/
def segFor (lead : List Lead) (default : Seg) : Seg :=
  match overrideOf lead with
  | some seg => seg
  | none => default

/-- The memory operand `(seg, ea)` of a source operand, none for a register (20_memory.md R34, 30_encoding.md R61). -/
def memOperand (s : State) (lead : List Lead) : Src → Option (Seg × Dword)
  | .reg _ => none
  | .mem32 a => some (segFor lead (defaultSeg32 a), ea32 s a)
  | .mem16 a => some (segFor lead (defaultSeg16 a), (ea16 s a).setWidth 32)

/-- `lin(seg, ea) = (base[seg] + ea) mod 2^32` (20_memory.md R35). -/
def linear (s : State) (seg : Seg) (ea : Dword) : Dword := (s.seg seg).base + ea

/-- Step 1 of `OperandRead`, segment range by mode, in unbounded integers: an operand with a byte above `limit[seg]` in
Protected mode (20_memory.md R37), above FFFFH in the other two (R39). -/
def rangeFault (s : State) (seg : Seg) (ea : Dword) (n : Nat) : Option Exn :=
  match s.cfg.mode with
  | .protectedMode =>
    if (s.seg seg).limit.toNat < ea.toNat + n - 1 then some (if seg = .ss then .ss else .gp) else none
  | .realAddress => if 0xFFFF < ea.toNat + n - 1 then some .gp else none
  | .virtual8086 => if 0xFFFF < ea.toNat + n - 1 then some .gp else none

/-- Step 2 of `OperandRead`, alignment, for a 16-byte operand only, of the linear address (20_memory.md R38). -/
def alignFault (s : State) (seg : Seg) (ea : Dword) (n : Nat) : Option Exn :=
  if n = 16 ∧ (linear s seg ea).toNat % 16 ≠ 0 then some .gp else none

/-- The report of steps 1 and 2: either one when both are set, a free value (20_memory.md R36, U3;
notes/assumptions/5.md). -/
def reportFault (draw : Nat) : Option Exn → Option Exn → Option Exn
  | some e1, some e2 => some (if e1 = e2 then e1 else if Config.freeReport draw then e1 else e2)
  | some e1, none => some e1
  | none, some e2 => some e2
  | none, none => none

/-- Whether a row of the paging verdict applies to a read of `n` bytes at `lin` (20_memory.md R40). -/
def pageApplies (lin : Dword) (n : Nat) : PageFault → Bool
  | .page bytes _ => (operandAddrs lin n).any fun a => regionHas bytes a
  | .reads starts m _ => decide (n = m) && regionHas starts lin.toNat

/-- The rows of the paging verdict that apply to a read of `n` bytes at `lin` (20_memory.md R40). -/
def pageHits (c : Config) (lin : Dword) (n : Nat) : List PageFault := c.pageFaults.filter (pageApplies lin n)

/-- `Translate(lin, n)`: the fault code, none for `Ok`; which row's code when several apply is a free value
(20_memory.md R40, U4; notes/assumptions/6.md). -/
def translate (c : Config) (lin : Dword) (n : Nat) : Option FaultCode :=
  match pageHits c lin n with
  | [] => none
  | [p] => some p.code
  | p :: q :: ps => some ((p :: q :: ps).getD (Config.freePage c.pageFaults lin n % (ps.length + 2)) p).code

/-- Step 3 of `OperandRead`, paging, never in RealAddress mode (20_memory.md R36, R40). -/
def pageFault (s : State) (lin : Dword) (n : Nat) : Option Exn :=
  match s.cfg.mode with
  | .protectedMode => (translate s.cfg lin n).map .pf
  | .realAddress => none
  | .virtual8086 => (translate s.cfg lin n).map .pf

/-- What reading a source operand answers: its value, the exception it raises, or why the model stops. -/
inductive Operand (w : Nat) where
  | value (v : BitVec w)
  | raises (e : Exn)
  | stuck (f : Fault)
  | refused (r : Refusal)
deriving DecidableEq, Repr

/-- Step 4 of `OperandRead`: the bytes, from ordinary memory the launch holds (20_memory.md R41, R46, R49). -/
def operandValue (w : Nat) (s : State) (lin : Dword) (n : Nat) : Operand w :=
  if (operandAddrs lin n).any fun a => s.cfg.devices.any fun r => regionHas r a then .refused (.deviceOperand lin)
  else
    match memRead w s lin n with
    | some v => .value v
    | none => .stuck (.noMemory lin)

/-- `OperandRead(seg, ea, n)` (20_memory.md R36), the operand's `n` bytes as a `w`-bit vector. A segment that the premise
`PlainSegments` excludes is refused (R37). -/
def operandRead (w : Nat) (s : State) (seg : Seg) (ea : Dword) (n : Nat) : Operand w :=
  if seg ∈ s.cfg.nonPlain then .refused (.segmentNotPlain seg)
  else
    match reportFault s.draws (rangeFault s seg ea n) (alignFault s seg ea n) with
    | some e => .raises e
    | none =>
      match pageFault s (linear s seg ea) n with
      | some e => .raises e
      | none => operandValue w s (linear s seg ea) n

/-- The value of a source operand: a register of the form's own file, or the checked read of `n` bytes of memory
(40_pcmpgt.md R71 step 2). -/
def source (w n : Nat) (s : State) (file : RegNum → BitVec w) (lead : List Lead) : Src → Operand w
  | .reg r => .value (file r)
  | .mem32 a => operandRead w s (segFor lead (defaultSeg32 a)) (ea32 s a) n
  | .mem16 a => operandRead w s (segFor lead (defaultSeg16 a)) ((ea16 s a).setWidth 32) n

/-- The source operand of a 64-bit form, `mm/m64`: 8 bytes when in memory (20_memory.md R31). -/
def source64 (s : State) (lead : List Lead) (src : Src) : Operand 64 := source 64 8 s s.getMm lead src

/-- The source operand of a 128-bit form, `xmm2/m128`: 16 bytes when in memory (20_memory.md R31). -/
def source128 (s : State) (lead : List Lead) (src : Src) : Operand 128 := source 128 16 s s.getXmm lead src

end Sys2Proof.Machine
end

