-- ==== Sys2Proof/Machine/Pcmpgt.lean ====
section
/-! DEFINITION. The compare-greater-than family: the lane function, the packed function, the checks before the operand,
the common execution sequence, and one meaning for each of the six forms (40_pcmpgt.md R70 to R82, 60_exceptions.md R92
to R96, R107). -/

namespace Sys2Proof.Machine

/-- `gt_N(a, b)`: all ones when `signed_N(a) > signed_N(b)`, else all zeros (40_pcmpgt.md R70). -/
def gtLane {N : Nat} (a b : BitVec N) : BitVec N := if b.toInt < a.toInt then BitVec.allOnes N else 0

/-- The element width in bits (30_encoding.md R51, 00_scope.md R8). -/
def widthBits : Width → Nat
  | .b => 8
  | .w => 16
  | .d => 32

/-- Lane `k` of width `N`: bits `[N*k + N - 1 : N*k]` (40_pcmpgt.md R71, 00_scope.md R8). -/
def lane {S : Nat} (N k : Nat) (v : BitVec S) : BitVec N := v.extractLsb' (N * k) N

/-- The `S`-bit vector whose lanes 0 to `L - 1` of width `N` are given, zero above them. -/
def packLanes {N : Nat} (S : Nat) (f : Nat → BitVec N) : Nat → BitVec S
  | 0 => 0
  | L + 1 => packLanes S f L ||| ((f L).setWidth S <<< (N * L))

/-- `pcmpgt(N, S, a, b)`: the lane function on each of the `S / N` lanes (40_pcmpgt.md R71). -/
def pcmpgt {S : Nat} (N : Nat) (a b : BitVec S) : BitVec S :=
  packLanes S (fun k => gtLane (lane N k a) (lane N k b)) (S / N)

/-- `PreChecks(S)`: the exception the checks before the operand raise, if any; the first condition that holds wins
(60_exceptions.md R107 steps 1 to 4; R92, R93, R95, R96; notes/assumptions/10.md). -/
def preChecks (size : OpSize) (s : State) : Option Exn :=
  if s.cr0em then some .ud
  else if size = .s128 ∧ s.cr4osfxsr = false then some .ud
  else if s.cr0ts then some .nm
  else if size = .s64 ∧ s.x87pending = true ∧ (s.cfg.mode = .protectedMode ∨ s.cfg.mfOutsideProtected = true) then
    some .mf
  else none

/-- Steps 1 and 2 of the common execution sequence, then `done` with the source operand's value (40_pcmpgt.md R71,
60_exceptions.md R108). -/
def runForm {w : Nat} (pre : Option Exn) (src : Operand w) (done : BitVec w → State → State) (s : State) :
    Host.Outcome State Fault Refusal :=
  match pre with
  | some e => .next (raise e s)
  | none =>
    match src with
    | .value b => .next (done b s)
    | .raises e => .next (raise e s)
    | .stuck f => .fault f
    | .refused r => .refused r

/-- `exec PCMPGT(N, 64, dst, src)` (40_pcmpgt.md R71). -/
def run64 (N : Nat) (lead : List Lead) (dst : RegNum) (src : Src) (s : State) : Host.Outcome State Fault Refusal :=
  runForm (preChecks .s64 s) (source64 s lead src)
    (fun b s => complete64 dst (pcmpgt N (s.getMm dst) b) (lengthOf lead src) s) s

/-- `exec PCMPGT(N, 128, dst, src)` (40_pcmpgt.md R71). -/
def run128 (N : Nat) (lead : List Lead) (dst : RegNum) (src : Src) (s : State) : Host.Outcome State Fault Refusal :=
  runForm (preChecks .s128 s) (source128 s lead src)
    (fun b s => complete128 dst (pcmpgt N (s.getXmm dst) b) (lengthOf lead src) s) s

/-- PCMPGTB mm, mm/m64 (40_pcmpgt.md R72). -/
def execPcmpgtbMm (lead : List Lead) (dst : RegNum) (src : Src) (s : State) : Host.Outcome State Fault Refusal :=
  run64 8 lead dst src s

/-- PCMPGTB xmm1, xmm2/m128 (40_pcmpgt.md R73). -/
def execPcmpgtbXmm (lead : List Lead) (dst : RegNum) (src : Src) (s : State) : Host.Outcome State Fault Refusal :=
  run128 8 lead dst src s

/-- PCMPGTW mm, mm/m64 (40_pcmpgt.md R74). -/
def execPcmpgtwMm (lead : List Lead) (dst : RegNum) (src : Src) (s : State) : Host.Outcome State Fault Refusal :=
  run64 16 lead dst src s

/-- PCMPGTW xmm1, xmm2/m128 (40_pcmpgt.md R75). -/
def execPcmpgtwXmm (lead : List Lead) (dst : RegNum) (src : Src) (s : State) : Host.Outcome State Fault Refusal :=
  run128 16 lead dst src s

/-- PCMPGTD mm, mm/m64 (40_pcmpgt.md R76). -/
def execPcmpgtdMm (lead : List Lead) (dst : RegNum) (src : Src) (s : State) : Host.Outcome State Fault Refusal :=
  run64 32 lead dst src s

/-- PCMPGTD xmm1, xmm2/m128 (40_pcmpgt.md R77). -/
def execPcmpgtdXmm (lead : List Lead) (dst : RegNum) (src : Src) (s : State) : Host.Outcome State Fault Refusal :=
  run128 32 lead dst src s

end Sys2Proof.Machine
end

