-- ==== Sys2Proof/Machine/Dispatch.lean ====
section
/-! DEFINITION. One arm per constructor of `Instr`: the meaning of each instruction. -/

namespace Sys2Proof.Machine

def exec (i : Instr) (s : State) : Host.Outcome State Fault Refusal :=
  match i with
  | .pcmpgtbMm lead dst src => Sys2Proof.Machine.execPcmpgtbMm lead dst src s
  | .pcmpgtbXmm lead dst src => Sys2Proof.Machine.execPcmpgtbXmm lead dst src s
  | .pcmpgtwMm lead dst src => Sys2Proof.Machine.execPcmpgtwMm lead dst src s
  | .pcmpgtwXmm lead dst src => Sys2Proof.Machine.execPcmpgtwXmm lead dst src s
  | .pcmpgtdMm lead dst src => Sys2Proof.Machine.execPcmpgtdMm lead dst src s
  | .pcmpgtdXmm lead dst src => Sys2Proof.Machine.execPcmpgtdXmm lead dst src s

end Sys2Proof.Machine
end

