-- ==== Sys2Proof/Machine/Fetch.lean ====
section
/-! DEFINITION. What a step does before it has an instruction: the launch premises, the place of `pc` in the program
text, and the bytes fetched (10_state.md R19, 20_memory.md R47, 70_reset_and_hazards.md R121, R123). -/

namespace Sys2Proof.Machine

/-- The code-segment offset one past the last byte of the text (70_reset_and_hazards.md R121). -/
def State.textEnd (s : State) : Nat := s.textBase.toNat + s.text.length

/-- Whether the text lies inside the code segment limit and its end below `2^32`, so that no `pc + len` passes either
(10_state.md R19). -/
def State.textFits (s : State) : Bool :=
  decide (s.textEnd ≤ s.segs.cs.limit.toNat + 1) && decide (s.textEnd < 2 ^ 32)

/-- The premise of R123 that a launch breaks, if it breaks one that does not depend on the operand. -/
def launchRefusal (s : State) : Option Refusal :=
  if s.cfg.noAlignmentCheck = false then some .alignmentCheckOn
  else if s.cfg.singleWriter = false then some .otherWriters
  else if s.cfg.textFetchable = false then some .textNotFetchable
  else if s.cfg.noDebug = false then some .debugOn
  else if s.cfg.noInterrupts = false then some .interruptsOn
  else if s.textFits = false then some .textOutOfRange
  else none

/-- The bytes of the text from `pc` to its end, or why there is no instruction at `pc` (70_reset_and_hazards.md R121,
20_memory.md R47). -/
def fetch (s : State) : Except Fault (List Byte) :=
  if s.pc.toNat = s.textEnd then .error .endOfRun
  else if s.textBase.toNat ≤ s.pc.toNat ∧ s.pc.toNat < s.textEnd then
    .ok (s.text.drop (s.pc.toNat - s.textBase.toNat))
  else .error .pcOutsideText

/-- A text of the given bytes loaded at `pc` by the launch, with no exception recorded (20_memory.md R47,
70_reset_and_hazards.md R121). -/
def State.loadText (s : State) (bytes : List Byte) : State :=
  { s with text := bytes, textBase := s.pc, fault := none }

end Sys2Proof.Machine
end

