-- ==== Sys2Proof/Machine/Step.lean ====
section
/-! DEFINITION. One step: the recorded fault, the launch premises, the fetch, the decode, then the instruction's meaning
(60_exceptions.md R109, 70_reset_and_hazards.md R121, R123). -/

namespace Sys2Proof.Machine

/-- One step of the machine. -/
def step (s : State) : Host.Outcome State Fault Refusal :=
  match s.fault with
  | some r => .fault (.raised r)
  | none =>
    match launchRefusal s with
    | some r => .refused r
    | none =>
      match fetch s with
      | .error f => .fault f
      | .ok bytes =>
        match decode s.cfg bytes with
        | .error why => .refused (.undecodable why)
        | .ok (i, _) => exec i s

/-- The state with an instruction of `nbits` bits `w`, zeros after it, loaded as the program text at `pc`
(notes/assumptions/4.md). -/
def State.withFetchWord (s : State) (nbits w : Nat) : State := s.loadText (tableBytes nbits w)

end Sys2Proof.Machine
end

