-- ==== Sys2Proof/Safety.lean ====
section
/-! DEFINITION. The terms the claims are stated in: what a launch and a state must meet for a form to complete, what a
completed form and a raised exception leave unchanged, which states are final, and the invariant every step keeps. They
are written from the spec's words, over the accessors only, and not from the meanings. -/

namespace Sys2Proof.Machine

/-- The launch meets every premise of R123 that does not depend on an operand, and its text lies inside the code segment
limit and below `2^32` (70_reset_and_hazards.md R123, 10_state.md R19). -/
structure LaunchOk (s : State) : Prop where
  noAlignmentCheck : s.cfg.noAlignmentCheck = true
  singleWriter : s.cfg.singleWriter = true
  textFetchable : s.cfg.textFetchable = true
  noDebug : s.cfg.noDebug = true
  noInterrupts : s.cfg.noInterrupts = true
  insideLimit : s.textBase.toNat + s.text.length ≤ s.segs.cs.limit.toNat + 1
  belowTop : s.textBase.toNat + s.text.length < 2 ^ 32

/-- The end of a run: `pc` one past the last byte of the text, and no exception recorded (70_reset_and_hazards.md R121,
60_exceptions.md R109). -/
def FinalState (s : State) : Prop := s.pc.toNat = s.textBase.toNat + s.text.length ∧ s.fault = none

/-- A pending x87 exception is reported in this mode: always in Protected mode, outside it by
`MF_OUTSIDE_PROTECTED` (60_exceptions.md R96). -/
def MfReported (s : State) : Prop :=
  s.x87pending = true ∧ (s.cfg.mode = .protectedMode ∨ s.cfg.mfOutsideProtected = true)

/-- What must have been set up for a form of a size to pass the checks before its operand (70_reset_and_hazards.md
R122). -/
def Ready (size : OpSize) (s : State) : Prop :=
  s.cr0em = false ∧ s.cr0ts = false ∧
    match size with
    | .s64 => ¬ MfReported s
    | .s128 => s.cr4osfxsr = true

/-- The operand's `n` bytes lie inside the segment: below the limit in Protected mode (20_memory.md R37), below FFFFH in
the other modes (R39). -/
def InRange (s : State) (seg : Seg) (ea : Dword) (n : Nat) : Prop :=
  ∀ k < n, ea.toNat + k ≤ (if s.cfg.mode = .protectedMode then (s.seg seg).limit.toNat else 0xFFFF)

/-- A 16-byte operand is aligned on 16 bytes; an 8-byte operand has no requirement (20_memory.md R38). -/
def Aligned (s : State) (seg : Seg) (ea : Dword) (n : Nat) : Prop :=
  n = 16 → ((s.seg seg).base + ea).toNat % 16 = 0

/-- The linear address of byte `k` of an operand at `lin` (20_memory.md R41). -/
def byteAddr (lin : Dword) (k : Nat) : Nat := (lin.toNat + k) % 2 ^ 32

/-- Some byte of the operand lies in a region. -/
def Touches (lin : Dword) (n : Nat) (r : Region) : Prop :=
  ∃ k < n, r.first ≤ byteAddr lin k ∧ byteAddr lin k ≤ r.last

/-- The bytes of `v`, lowest first, stand at the operand's addresses (20_memory.md R33, R41). -/
def BytesAre {w : Nat} (s : State) (lin : Dword) (n : Nat) (v : BitVec w) : Prop :=
  ∀ k < n, s.byteAt (byteAddr lin k) = some (v.extractLsb' (8 * k) 8)

/-- The operand's segment and region are ones the launch premises admit (70_reset_and_hazards.md R123, `PlainSegments`
and `OrdinaryMemory`). -/
def Admitted (s : State) (seg : Seg) (ea : Dword) (n : Nat) : Prop :=
  seg ∉ s.cfg.nonPlain ∧ ∀ r ∈ s.cfg.devices, ¬ Touches ((s.seg seg).base + ea) n r

/-- A row of the paging verdict applies to a read of `n` bytes at `lin`: one of its bytes lies in the row's page, or the
row speaks of reads of that size at that address (20_memory.md R40). -/
def FaultsOn (lin : Dword) (n : Nat) : PageFault → Prop
  | .page bytes _ => Touches lin n bytes
  | .reads starts m _ => n = m ∧ starts.first ≤ lin.toNat ∧ lin.toNat ≤ starts.last

/-- No page fault occurs: never in RealAddress mode, else no row of the paging verdict applies (20_memory.md R40). -/
def NoPageFault (s : State) (seg : Seg) (ea : Dword) (n : Nat) : Prop :=
  s.cfg.mode = .realAddress ∨ ∀ p ∈ s.cfg.pageFaults, ¬ FaultsOn ((s.seg seg).base + ea) n p

/-- The memory operand can be read and holds `v` (70_reset_and_hazards.md R122). -/
structure Readable {w : Nat} (s : State) (seg : Seg) (ea : Dword) (n : Nat) (v : BitVec w) : Prop where
  inRange : InRange s seg ea n
  aligned : Aligned s seg ea n
  noPageFault : NoPageFault s seg ea n
  admitted : Admitted s seg ea n
  bytes : BytesAre s ((s.seg seg).base + ea) n v

/-- The source operand of a form has the value `v`: the register's content, or memory that can be read. -/
def SourceIs {w : Nat} (n : Nat) (file : RegNum → BitVec w) (s : State) (lead : List Lead) (src : Src) (v : BitVec w) :
    Prop :=
  match memOperand s lead src with
  | some (seg, ea) => Readable s seg ea n v
  | none => ∃ r, src = .reg r ∧ v = file r

/-- The source operand of a 64-bit form has the value `v`. -/
def Source64Is (s : State) (i : Instr) (v : MmWord) : Prop := SourceIs 8 s.getMm s i.lead i.src v

/-- The source operand of a 128-bit form has the value `v`. -/
def Source128Is (s : State) (i : Instr) (v : XmmWord) : Prop := SourceIs 16 s.getXmm s i.lead i.src v

/-- `r` is the packed compare of `a` with `b`: every lane of width `N` all ones where `a`'s element is greater, signed,
than `b`'s, else all zeros (40_pcmpgt.md R70, R71). -/
def LanesGreater {S : Nat} (N : Nat) (a b r : BitVec S) : Prop :=
  ∀ k < S / N, lane N k r = if (lane N k b).toInt < (lane N k a).toInt then BitVec.allOnes N else 0

/-- What no form of the group changes, completing or raising: parameters, general registers, control bits, the pending
bit, segments, flags, the text, and every byte of memory (10_state.md R23). -/
structure KeepsRest (s t : State) : Prop where
  cfg : t.cfg = s.cfg
  gpr : t.gpr = s.gpr
  cr0em : t.cr0em = s.cr0em
  cr0ts : t.cr0ts = s.cr0ts
  cr4osfxsr : t.cr4osfxsr = s.cr4osfxsr
  x87pending : t.x87pending = s.x87pending
  segs : t.segs = s.segs
  flags : t.flags = s.flags
  mem : t.mem = s.mem
  bytes : ∀ a, t.byteAt a = s.byteAt a
  text : t.text = s.text
  textBase : t.textBase = s.textBase

/-- The frame of a completed 64-bit form: the x87 bookkeeping is left open, everything else but the destination and `pc`
is kept (10_state.md R17, R23). -/
structure Frame64 (d : RegNum) (s t : State) : Prop where
  rest : KeepsRest s t
  otherMm : ∀ r, r ≠ d → t.getMm r = s.getMm r
  xmm : t.xmm = s.xmm
  fault : t.fault = s.fault

/-- The frame of a completed 128-bit form: everything but the destination and `pc` is kept, the x87 bookkeeping too
(10_state.md R17, R23). -/
structure Frame128 (d : RegNum) (s t : State) : Prop where
  rest : KeepsRest s t
  otherXmm : ∀ r, r ≠ d → t.getXmm r = s.getXmm r
  mm : t.mm = s.mm
  x87 : t.x87 = s.x87
  fault : t.fault = s.fault

/-- Exception `e` was taken: it is recorded with the address of the instruction, and no architectural state changed
(60_exceptions.md R108, R109). -/
structure Took (e : Exn) (s t : State) : Prop where
  rest : KeepsRest s t
  mm : t.mm = s.mm
  xmm : t.xmm = s.xmm
  x87 : t.x87 = s.x87
  pc : t.pc = s.pc
  fault : t.fault = some ⟨e, s.pc⟩

/-- The form, run in state `s`, raises exception `e`. -/
def Raises (i : Instr) (s : State) (e : Exn) : Prop := ∃ t, exec i s = .next t ∧ Took e s t

/-- The instruction the bytes at `pc` decode to, if they do (20_memory.md R47). -/
def instrAt (s : State) : Option Instr :=
  match fetch s with
  | .error _ => none
  | .ok bytes =>
    match decode s.cfg bytes with
    | .error _ => none
    | .ok (i, _) => some i

/-- The instructions that the first `k` steps from a state execute, as long as each answers a next state. -/
def executed : Nat → State → List Instr
  | 0, _ => []
  | k + 1, s =>
    match step s with
    | .next t => (instrAt s).toList ++ executed k t
    | .fault _ => []
    | .refused _ => []

/-- The bytes of a form's memory operand (20_memory.md R31). -/
def operandBytes : OpSize → Nat
  | .s64 => 8
  | .s128 => 16

/-- The form completed: its destination holds the packed compare of its old value with the source operand's, `pc`
advanced by the length, and the frame holds (40_pcmpgt.md R71, 10_state.md R23). -/
def Completed (i : Instr) (s t : State) : Prop :=
  t.pc = s.pc + BitVec.ofNat 32 (lengthOf i.lead i.src) ∧
    match i.size with
    | .s64 => Frame64 i.dst s t
    | .s128 => Frame128 i.dst s t

/-- The outcome with every next state changed by a function. -/
def mapNext (f : State → State) : Host.Outcome State Fault Refusal → Host.Outcome State Fault Refusal
  | .next t => .next (f t)
  | .fault r => .fault r
  | .refused r => .refused r

/-- The state with another CPUID signature among its launch parameters. -/
def withSignature (g : CpuSignature) (s : State) : State := { s with cfg := { s.cfg with cpuSignature := g } }

/-- The state with another flags state of the embedding machine. -/
def withFlags (f : Nat) (s : State) : State := { s with flags := f }

/-- What a handler may change to clear the cause of a fault: the control bits, the pending bit, the launch's paging and
segments, and memory (60_exceptions.md R110). -/
structure Cure where
  cr0em : Bool
  cr0ts : Bool
  cr4osfxsr : Bool
  x87pending : Bool
  cfg : Config
  segs : Segments
  mem : Memory
deriving DecidableEq, Repr

/-- The state after a handler's changes. -/
def Cure.apply (c : Cure) (s : State) : State :=
  { s with
    cr0em := c.cr0em, cr0ts := c.cr0ts, cr4osfxsr := c.cr4osfxsr, x87pending := c.x87pending,
    cfg := c.cfg, segs := c.segs, mem := c.mem }

/-- The vector with lane `k` of width `N` replaced. -/
def setLane {N S : Nat} (k : Nat) (v : BitVec S) (x : BitVec N) : BitVec S :=
  (v &&& ~~~((BitVec.allOnes N).setWidth S <<< (N * k))) ||| (x.setWidth S <<< (N * k))

/-- The source's Operation text, one statement per lane in a given order, each writing the destination at once; the source
operand is another location (40_pcmpgt.md R70, R80). -/
def operationText {S : Nat} (N : Nat) (b : BitVec S) (order : List Nat) (a : BitVec S) : BitVec S :=
  order.foldl (fun dst k => setLane k dst (gtLane (lane N k dst) (lane N k b))) a

/-- The same text when source and destination are one register, each statement reading what the earlier ones wrote
(40_pcmpgt.md R79). -/
def operationTextSame {S : Nat} (N : Nat) (order : List Nat) (a : BitVec S) : BitVec S :=
  order.foldl (fun dst k => setLane k dst (gtLane (lane N k dst) (lane N k dst))) a

/-- The element widths of the group (40_pcmpgt.md R70). -/
def ElementWidth (N : Nat) : Prop := N = 8 ∨ N = 16 ∨ N = 32

/-- The operand sizes of the group (40_pcmpgt.md R71). -/
def OperandWidth (S : Nat) : Prop := S = 64 ∨ S = 128

/-- The `mask` and `match` of an opcode-table row: the 128-bit rows have the `66` byte (30_encoding.md R64). -/
def tableRow (withOpSize : Bool) (width : Width) : BitVec 32 × BitVec 32 :=
  match withOpSize, width with
  | false, .b => (0xFFFF0000, 0x0F640000)
  | true, .b => (0xFFFFFF00, 0x660F6400)
  | false, .w => (0xFFFF0000, 0x0F650000)
  | true, .w => (0xFFFFFF00, 0x660F6500)
  | false, .d => (0xFFFF0000, 0x0F660000)
  | true, .d => (0xFFFFFF00, 0x660F6600)

/-- The first four bytes of a string as a number, the first byte most significant, zero past the end (30_encoding.md
R64). -/
def firstFour (bytes : List Byte) : BitVec 32 :=
  bytes.getD 0 0 ++ bytes.getD 1 0 ++ bytes.getD 2 0 ++ bytes.getD 3 0

/-- A displacement as an integer, one byte sign-extended (30_encoding.md R54). -/
def disp32Int : Disp32 → Int
  | .none => 0
  | .d8 d => d.toInt
  | .d32 d => d.toNat

/-- A displacement as an integer, one byte sign-extended (30_encoding.md R56). -/
def disp16Int : Disp16 → Int
  | .none => 0
  | .d8 d => d.toInt
  | .d16 d => d.toNat

/-- The scaled index as an integer, 0 when `index = 100` (30_encoding.md R54). -/
def indexInt (s : State) (scale : BitVec 2) (index : RegNum) : Int :=
  if index = 4#3 then 0 else (s.reg32 index).toNat * 2 ^ scale.toNat

/-- A base that is 16 times a 16-bit segment register (20_memory.md R35). -/
def RealBase (g : Segment) : Prop := g.base.toNat % 16 = 0 ∧ g.base.toNat ≤ 0xFFFF0

/-- The invariant every step keeps: memory in its canonical form (the model's own, notes/assumptions/3.md); real-mode
segment bases (20_memory.md R35); and a recorded exception that stands at `pc` (60_exceptions.md R108), #SS only in
Protected mode (R98), #PF never in RealAddress mode (R101) and with the code of a row of the paging verdict (that
`Translate` is a list of rows is the model's form of it, notes/assumptions/6.md), #MF only where it is reported (R96), #UD
only with EM set or OSFXSR clear (R92, R93), #NM only with TS set and EM clear (R95, R107). -/
structure Inv (s : State) : Prop where
  mem : s.mem.wf = true
  bases : s.cfg.mode ≠ .protectedMode → ∀ seg, RealBase (s.seg seg)
  faultPc : ∀ r, s.fault = some r → r.pc = s.pc
  faultSs : ∀ r, s.fault = some r → r.exn = .ss → s.cfg.mode = .protectedMode
  faultPf : ∀ r c, s.fault = some r → r.exn = .pf c → s.cfg.mode ≠ .realAddress ∧ ∃ p ∈ s.cfg.pageFaults, p.code = c
  faultMf : ∀ r, s.fault = some r → r.exn = .mf → MfReported s
  faultUd : ∀ r, s.fault = some r → r.exn = .ud → s.cr0em = true ∨ s.cr4osfxsr = false
  faultNm : ∀ r, s.fault = some r → r.exn = .nm → s.cr0ts = true ∧ s.cr0em = false

end Sys2Proof.Machine
end

