-- ==== Sys2Proof/Certificates/Slice0/Obligations.lean ====
section
/-! DEFINITION. The statements for the provers, from the numbered rules of spec/. -/

open Sys2Proof Sys2Proof.Machine

/-! Encoding. -/

/-- R60, R61, R9: decoding the encoding of any well-formed instruction of a launch gives that instruction, and leaves the
bytes after it. -/
def Obligations.DecodeEncodeRoundTrip : Prop :=
  ∀ (c : Config) (i : Instr) (rest : List Byte), WellFormed c i → decode c (encode i ++ rest) = .ok (i, rest)

/-- R60, R61: whatever the decoder reads is a well-formed instruction, and the bytes it took are that instruction's
encoding. -/
def Obligations.DecodedBytesAreTheEncoding : Prop :=
  ∀ (c : Config) (bytes : List Byte) (i : Instr) (rest : List Byte),
    decode c bytes = .ok (i, rest) → WellFormed c i ∧ bytes = encode i ++ rest

/-- R60: the encoding has `P + 2 + 1 + S + D` bytes, 3 to 11, a 128-bit form at least 4; and 3, 4 and 11 are reached. -/
def Obligations.EncodedLengthIsThreeToEleven : Prop :=
  (∀ (c : Config) (i : Instr), WellFormed c i →
    (encode i).length = i.lead.length + 2 + 1 + srcTail i.src ∧ 3 ≤ (encode i).length ∧ (encode i).length ≤ 11 ∧
      (i.size = .s128 → 4 ≤ (encode i).length)) ∧
  (∃ c i, WellFormed c i ∧ (encode i).length = 3) ∧
  (∃ c i, WellFormed c i ∧ i.size = .s128 ∧ (encode i).length = 4) ∧
  (∃ c i, WellFormed c i ∧ (encode i).length = 11)

/-- R53, R54, R56, R65: words written out from the encoding tables decode to the instructions they stand for. -/
def Obligations.WrittenOutWordsDecode : Prop :=
  decode Config.reset [0x0F, 0x64, 0b11000001] = .ok (.pcmpgtbMm [] 0 (.reg 1), []) ∧
  decode Config.reset [0x66, 0x0F, 0x65, 0b11011101] = .ok (.pcmpgtwXmm [.opSize] 3 (.reg 5), []) ∧
  decode Config.reset [0x0F, 0x65, 0b01110101, 0xF8] = .ok (.pcmpgtwMm [] 6 (.mem32 (.based 5 (.d8 0xF8))), []) ∧
  decode Config.reset [0x66, 0x0F, 0x64, 0b01001100, 0b10110011, 0x10] =
    .ok (.pcmpgtbXmm [.opSize] 1 (.mem32 (.sib 2 6 3 (.d8 0x10))), []) ∧
  decode { Config.reset with mode := .realAddress } [0x0F, 0x65, 0b01000110, 0x04] =
    .ok (.pcmpgtwMm [] 0 (.mem16 (.based 6 (.d8 4))), [])

/-- R58, R59: after any admitted leading bytes, a byte that is neither a leading byte nor `0F` is refused by name, and
`0F` followed by a byte other than `64`, `65`, `66` is not of this group. -/
def Obligations.ForeignBytesAreRefused : Prop :=
  ∀ (c : Config) (lead : List Lead) (b : Byte) (rest : List Byte), leadsOk lead = true →
    (leadOf b = none → b ≠ 0x0F#8 →
      decode c (lead.map leadByte ++ b :: rest) =
        .error (if b = 0xF0#8 then .lockByte else if b = 0xF2#8 ∨ b = 0xF3#8 then .repeatByte b else .foreignByte b)) ∧
    (b ≠ 0x64#8 → b ≠ 0x65#8 → b ≠ 0x66#8 → decode c (lead.map leadByte ++ 0x0F#8 :: b :: rest) = .error (.notThisGroup b))

/-- R59: a second `66`, a second `67` or two segment-override bytes before `0F` are refused, whatever follows. -/
def Obligations.RepeatedLeadingBytesAreRefused : Prop :=
  ∀ (c : Config) (lead : List Lead) (rest : List Byte),
    1 < lead.count .opSize ∨ 1 < lead.count .addrSize ∨ 1 < lead.countP isOverride →
    ∃ why, decode c (lead.map leadByte ++ 0x0F#8 :: rest) = .error why ∧
      (why = .second66 ∨ why = .second67 ∨ why = .secondOverride)

/-- R59: an instruction whose bytes run past the end of the text is refused, wherever it is cut. -/
def Obligations.TruncatedInstructionIsRefused : Prop :=
  ∀ (c : Config) (i : Instr) (front back : List Byte),
    WellFormed c i → encode i = front ++ back → back ≠ [] → decode c front = .error .truncated

/-- R59: all 256 values of the ModRM byte are meaningful for each opcode, under any admitted leading bytes. -/
def Obligations.EveryModRmByteIsMeaningful : Prop :=
  ∀ (c : Config) (lead : List Lead) (width : Width) (modrm : Byte), leadsOk lead = true →
    ∃ tail i, decode c (lead.map leadByte ++ 0x0F#8 :: opcodeByte width :: modrm :: tail) = .ok (i, []) ∧
      i.width = width ∧ i.dst = modrm.extractLsb' 3 3 ∧ i.lead = lead ∧
      (modrm.extractLsb' 6 2 = 3#2 → i.src = .reg (modrm.extractLsb' 0 3)) ∧
      (modrm.extractLsb' 6 2 ≠ 3#2 → ∀ r, i.src ≠ .reg r)

/-- R64: what the decoder reads from bytes without a segment override or `67` matches its opcode-table row's mask, and no
word matches two rows. -/
def Obligations.DecodedBytesMatchTheirTableRow : Prop :=
  (∀ (c : Config) (bytes : List Byte) (i : Instr) (rest : List Byte), decode c bytes = .ok (i, rest) →
    Lead.addrSize ∉ i.lead → (∀ g, Lead.segment g ∉ i.lead) →
    firstFour bytes &&& (tableRow (decide (Lead.opSize ∈ i.lead)) i.width).1 =
      (tableRow (decide (Lead.opSize ∈ i.lead)) i.width).2) ∧
  (∀ (word : BitVec 32) (p q : Bool) (u v : Width), word &&& (tableRow p u).1 = (tableRow p u).2 →
    word &&& (tableRow q v).1 = (tableRow q v).2 → p = q ∧ u = v)

/-- R57, R94: on a processor without SSE2 the bytes of a 128-bit form decode to the 64-bit form with the same registers,
source operand and length. -/
def Obligations.WithoutSse2TheBytesAreThe64BitForm : Prop :=
  ∀ (c : Config) (width : Width) (lead : List Lead) (dst : RegNum) (src : Src),
    WellFormed c (Instr.form .s128 width lead dst src) →
    decode { c with sse2 := false } (encode (Instr.form .s128 width lead dst src)) =
      .ok (Instr.form .s64 width lead dst src, [])

/-! Operand addresses and memory. -/

/-- R54: the effective address with 32-bit addressing is the sum of base, scaled index and displacement modulo `2^32`,
`disp8` sign-extended. -/
def Obligations.EffectiveAddress32IsTheModularSum : Prop :=
  ∀ (s : State) (rm base index : RegNum) (scale : BitVec 2) (disp : Disp32) (d : Dword),
    ((ea32 s (.based rm disp)).toNat : Int) = ((s.reg32 rm).toNat + disp32Int disp) % 2 ^ 32 ∧
    (ea32 s (.direct d)).toNat = d.toNat ∧
    ((ea32 s (.sib scale index base disp)).toNat : Int) =
      ((s.reg32 base).toNat + indexInt s scale index + disp32Int disp) % 2 ^ 32 ∧
    ((ea32 s (.sibNoBase scale index d)).toNat : Int) = (indexInt s scale index + d.toNat) % 2 ^ 32

/-- R56: the effective address with 16-bit addressing is the sum of the row's registers and the displacement modulo
`2^16`, `disp8` sign-extended; the registers are the low halves of the general registers. -/
def Obligations.EffectiveAddress16IsTheModularSum : Prop :=
  ∀ (s : State) (disp : Disp16) (d : BitVec 16),
    let low : RegNum → Int := fun r => ((s.reg32 r).toNat : Int) % 2 ^ 16
    let ea : RegNum → Int := fun rm => ((ea16 s (.based rm disp)).toNat : Int)
    ea 0#3 = (low 3#3 + low 6#3 + disp16Int disp) % 2 ^ 16 ∧ ea 1#3 = (low 3#3 + low 7#3 + disp16Int disp) % 2 ^ 16 ∧
    ea 2#3 = (low 5#3 + low 6#3 + disp16Int disp) % 2 ^ 16 ∧ ea 3#3 = (low 5#3 + low 7#3 + disp16Int disp) % 2 ^ 16 ∧
    ea 4#3 = (low 6#3 + disp16Int disp) % 2 ^ 16 ∧ ea 5#3 = (low 7#3 + disp16Int disp) % 2 ^ 16 ∧
    ea 6#3 = (low 5#3 + disp16Int disp) % 2 ^ 16 ∧ ea 7#3 = (low 3#3 + disp16Int disp) % 2 ^ 16 ∧
    (ea16 s (.direct d)).toNat = d.toNat

/-- R55, R58: an override byte names the segment; without one it is SS exactly when the base register is ESP or EBP
(32-bit forms) or BP (16-bit forms), else DS. -/
def Obligations.SegmentIsTheOverrideOrTheDefault : Prop :=
  ∀ (s : State) (lead : List Lead) (rm base index : RegNum) (scale : BitVec 2) (disp : Disp32) (disp' : Disp16)
    (d : Dword) (d' : BitVec 16),
    (∀ g src operand, leadsOk lead = true → Lead.segment g ∈ lead → memOperand s lead src = some operand →
      operand.1 = g) ∧
    ((∀ g, Lead.segment g ∉ lead) → ∀ operand,
      (memOperand s lead (.mem32 (.based rm disp)) = some operand →
        operand.1 = if rm = 5#3 then .ss else .ds) ∧
      (memOperand s lead (.mem32 (.direct d)) = some operand → operand.1 = .ds) ∧
      (memOperand s lead (.mem32 (.sib scale index base disp)) = some operand →
        operand.1 = if base = 4#3 ∨ base = 5#3 then .ss else .ds) ∧
      (memOperand s lead (.mem32 (.sibNoBase scale index d)) = some operand → operand.1 = .ds) ∧
      (memOperand s lead (.mem16 (.based rm disp')) = some operand →
        operand.1 = if rm = 2#3 ∨ rm = 3#3 ∨ rm = 6#3 then .ss else .ds) ∧
      (memOperand s lead (.mem16 (.direct d')) = some operand → operand.1 = .ds))

/-- R7, R33, R41: what `MemWrite` stores, `MemRead` at the same address returns; byte `k` of the value, least significant
first, stands at the linear address plus `k` modulo `2^32`; and every byte outside the stored ones reads as before. -/
def Obligations.MemReadReturnsWhatMemWriteStored : Prop :=
  ∀ (s : State) (lin : Dword) (n : Nat) (v : BitVec (8 * n)), n ≤ 2 ^ 32 → s.mem.wf = true →
    (∀ k < n, holds s.cfg (byteAddr lin k) = true) →
    memRead (8 * n) (s.memWrite lin n v) lin n = some v ∧
    (∀ k < n, (s.memWrite lin n v).byteAt (byteAddr lin k) = some (v.extractLsb' (8 * k) 8)) ∧
    ∀ a, (∀ k < n, a ≠ byteAddr lin k) → (s.memWrite lin n v).byteAt a = s.byteAt a

/-! The compare. -/

/-- R78: the lane result is all ones (-1 signed, `2^N - 1` unsigned), exactly when the destination's element is the
greater signed integer, or zero; and the signed order is the unsigned order
with both sign bits flipped: if the sign bits differ the one with sign bit 0 is greater, else the order is unsigned. -/
def Obligations.SignedOrderIsUnsignedOrderWithSignBitsFlipped : Prop :=
  ∀ (N : Nat), ElementWidth N → ∀ a b : BitVec N,
    (gtLane a b = BitVec.allOnes N ∨ gtLane a b = 0) ∧ (gtLane a b = BitVec.allOnes N ↔ b.toInt < a.toInt) ∧
    (BitVec.allOnes N).toInt = -1 ∧ (BitVec.allOnes N).toNat = 2 ^ N - 1 ∧
    (gtLane a b = BitVec.allOnes N ↔
      (b ^^^ BitVec.ofNat N (2 ^ (N - 1))).toNat < (a ^^^ BitVec.ofNat N (2 ^ (N - 1))).toNat) ∧
    (gtLane a b = BitVec.allOnes N ↔
      if a.msb = b.msb then b.toNat < a.toNat else a.msb = false)

/-- R79, R80 and the Operation section: the source's lane-by-lane text, executed in any order of its lanes, gives the
packed compare; and with one register as both operands it gives zero. -/
def Obligations.OperationTextInAnyLaneOrderIsThePackedCompare : Prop :=
  ∀ (N S : Nat), ElementWidth N → OperandWidth S → ∀ (order : List Nat), order.Perm (List.range (S / N)) →
    ∀ a b : BitVec S, operationText N b order a = pcmpgt N a b ∧ operationTextSame N order a = 0

/-- R81: the five properties of the packed compare. -/
def Obligations.PackedCompareProperties : Prop :=
  (∀ (N S : Nat), ElementWidth N → OperandWidth S → ∀ a b : BitVec S,
    (∀ k < S / N, lane N k (pcmpgt N a b) = BitVec.allOnes N ∨ lane N k (pcmpgt N a b) = 0) ∧
    pcmpgt N a a = 0 ∧
    (∀ k < S / N,
      ¬ (lane N k (pcmpgt N a b) = BitVec.allOnes N ∧ lane N k (pcmpgt N b a) = BitVec.allOnes N) ∧
      ((lane N k (pcmpgt N a b) = 0 ∧ lane N k (pcmpgt N b a) = 0) ↔ lane N k a = lane N k b))) ∧
  (∀ (N : Nat), ElementWidth N → ∀ a b : BitVec 128,
    (pcmpgt N a b).extractLsb' 0 64 = pcmpgt N (a.extractLsb' 0 64) (b.extractLsb' 0 64) ∧
    (pcmpgt N a b).extractLsb' 64 64 = pcmpgt N (a.extractLsb' 64 64) (b.extractLsb' 64 64)) ∧
  pcmpgt 8 (0x0000000000000100 : MmWord) 0x0000000000000001 = 0x000000000000FF00 ∧
  pcmpgt 16 (0x0000000000000100 : MmWord) 0x0000000000000001 = 0x000000000000FFFF ∧
  pcmpgt 32 (0x0000000000000100 : MmWord) 0x0000000000000001 = 0x00000000FFFFFFFF

/-! Results and frames. -/

/-- R71, R72, R74, R76, R122: when the checks pass and the source operand can be read, every 64-bit form (`pcmpgtbMm`,
`pcmpgtwMm`, `pcmpgtdMm`), with a register or a memory source, completes: every lane of the destination is all ones
where the old destination's element is greater, signed, than the source's, else zero; `pc` advances by the length; and
the frame holds. -/
def Obligations.Every64BitFormCompletesWithItsResult : Prop :=
  ∀ (i : Instr) (s : State) (v : MmWord), i.size = .s64 → Ready .s64 s → Source64Is s i v →
    ∃ t, exec i s = .next t ∧ LanesGreater (widthBits i.width) (s.getMm i.dst) v (t.getMm i.dst) ∧ Completed i s t

/-- R71, R73, R75, R77, R122: the same of every 128-bit form (`pcmpgtbXmm`, `pcmpgtwXmm`, `pcmpgtdXmm`), which also keeps
the MMX file and the x87 bookkeeping. -/
def Obligations.Every128BitFormCompletesWithItsResult : Prop :=
  ∀ (i : Instr) (s : State) (v : XmmWord), i.size = .s128 → Ready .s128 s → Source128Is s i v →
    ∃ t, exec i s = .next t ∧ LanesGreater (widthBits i.width) (s.getXmm i.dst) v (t.getXmm i.dst) ∧ Completed i s t

/-- R79: a form whose source is its own destination register writes all zeros, whatever the register held. -/
def Obligations.SameRegisterGivesAllZeros : Prop :=
  ∀ (i : Instr) (s : State), i.src = .reg i.dst → Ready i.size s →
    ∃ t, exec i s = .next t ∧ Completed i s t ∧
      match i.size with
      | .s64 => t.getMm i.dst = 0
      | .s128 => t.getXmm i.dst = 0

/-- R23: a form that answers a next state either completed, changing its destination and `pc` (and the x87 bookkeeping,
for a 64-bit form) and nothing else, or raised an exception and changed nothing. -/
def Obligations.EveryNextStateIsCompletionOrException : Prop :=
  ∀ (i : Instr) (s t : State), exec i s = .next t → Completed i s t ∨ ∃ e, Took e s t

/-- R108: a form that raises an exception changes no architectural state: registers keep their values, `pc` stays, memory
and the x87 bookkeeping are untouched. -/
def Obligations.RaisingChangesNoArchitecturalState : Prop :=
  ∀ (i : Instr) (s t : State) (r : Raised), s.fault = none → exec i s = .next t → t.fault = some r →
    (∀ k, t.getMm k = s.getMm k) ∧ (∀ k, t.getXmm k = s.getXmm k) ∧ t.pc = s.pc ∧ r.pc = s.pc ∧ t.x87 = s.x87 ∧
      KeepsRest s t

/-- R106: the value written depends only on the two operand values: not on the mode, the control bits, the pending bit,
the segments or paging. -/
def Obligations.ResultDependsOnlyOnTheOperands : Prop :=
  ∀ (i : Instr) (s s' t t' : State), exec i s = .next t → exec i s' = .next t' → s.fault = none → s'.fault = none →
    t.fault = none → t'.fault = none →
    (∀ v, i.size = .s64 → s.getMm i.dst = s'.getMm i.dst → Source64Is s i v → Source64Is s' i v →
      t.getMm i.dst = t'.getMm i.dst) ∧
    (∀ v, i.size = .s128 → s.getXmm i.dst = s'.getXmm i.dst → Source128Is s i v → Source128Is s' i v →
      t.getXmm i.dst = t'.getXmm i.dst)

/-- R20: no flag is written and none is read: running with another flags state gives the same outcome with that flags
state in it. -/
def Obligations.FlagsAreNeitherReadNorWritten : Prop :=
  ∀ (i : Instr) (s : State) (f : Nat), exec i (withFlags f s) = mapNext (withFlags f) (exec i s)

/-- R127: the parameter `CpuSignature` selects a timing column and nothing else: no step depends on it. -/
def Obligations.CpuSignatureNeverMatters : Prop :=
  ∀ (s : State) (g : CpuSignature), step (withSignature g s) = mapNext (withSignature g) (step s)

/-! Exceptions. -/

/-- R92: a 64-bit form raises #UD exactly when EM in CR0 is set, in every mode and whatever OSFXSR is; no error code. -/
def Obligations.Ud64ExactlyWhenEmulationIsSet : Prop :=
  (∀ (i : Instr) (s : State), i.size = .s64 → s.fault = none → (Raises i s .ud ↔ s.cr0em = true)) ∧
  Exn.ud.errorCode = none

/-- R93: a 128-bit form raises #UD exactly when EM in CR0 is set or OSFXSR in CR4 is clear, in every mode; no error
code. -/
def Obligations.Ud128ExactlyWhenEmulationOrNoOsfxsr : Prop :=
  (∀ (i : Instr) (s : State), i.size = .s128 → s.fault = none →
    (Raises i s .ud ↔ s.cr0em = true ∨ s.cr4osfxsr = false)) ∧
  Exn.ud.errorCode = none

/-- R95, R107: every form raises #NM exactly when TS in CR0 is set and no #UD condition comes first; no error code. -/
def Obligations.NmExactlyWhenTaskSwitched : Prop :=
  (∀ (i : Instr) (s : State), s.fault = none →
    (Raises i s .nm ↔ s.cr0ts = true ∧ s.cr0em = false ∧ (i.size = .s128 → s.cr4osfxsr = true))) ∧
  Exn.nm.errorCode = none

/-- R96, R107: #MF is raised exactly by a 64-bit form with a pending x87 exception that this mode reports, when no #UD or
#NM condition comes first; a 128-bit form never raises it; no error code. -/
def Obligations.MfExactlyFor64BitFormsWithPendingException : Prop :=
  (∀ (i : Instr) (s : State), s.fault = none →
    (Raises i s .mf ↔ i.size = .s64 ∧ MfReported s ∧ s.cr0em = false ∧ s.cr0ts = false)) ∧
  Exn.mf.errorCode = none

/-- R37, R97, R98, R36: in Protected mode a memory operand with a byte above its segment's limit raises #GP(0), or #SS(0)
when it is in SS; an SS operand that is also misaligned raises either one. -/
def Obligations.ProtectedModeLimitRaisesGpOrSs : Prop :=
  ∀ (i : Instr) (s : State) (seg : Seg) (ea : Dword), memOperand s i.lead i.src = some (seg, ea) → Ready i.size s →
    seg ∉ s.cfg.nonPlain → s.cfg.mode = .protectedMode → ¬ InRange s seg ea (operandBytes i.size) →
    (seg ≠ .ss → Raises i s .gp) ∧
    (seg = .ss → Aligned s seg ea (operandBytes i.size) → Raises i s .ss) ∧
    (seg = .ss → ¬ Aligned s seg ea (operandBytes i.size) → Raises i s .ss ∨ Raises i s .gp) ∧
    Exn.gp.errorCode = some 0 ∧ Exn.ss.errorCode = some 0

/-- R39, R100: in RealAddress and Virtual8086 mode a memory operand with a byte above FFFFH raises #GP(0) in every
segment, SS included. -/
def Obligations.RealAddressRangeRaisesGp : Prop :=
  ∀ (i : Instr) (s : State) (seg : Seg) (ea : Dword), memOperand s i.lead i.src = some (seg, ea) → Ready i.size s →
    seg ∉ s.cfg.nonPlain → s.cfg.mode ≠ .protectedMode → ¬ InRange s seg ea (operandBytes i.size) → Raises i s .gp

/-- R38, R99: a 16-byte operand that is not aligned on 16 bytes raises #GP(0) in every segment and mode, but for an SS
operand that is also beyond its limit in Protected mode, where either report is admitted. -/
def Obligations.MisalignedM128RaisesGp : Prop :=
  ∀ (i : Instr) (s : State) (seg : Seg) (ea : Dword), i.size = .s128 → memOperand s i.lead i.src = some (seg, ea) →
    Ready .s128 s → seg ∉ s.cfg.nonPlain → ¬ Aligned s seg ea 16 →
    Raises i s .gp ∨ (seg = .ss ∧ s.cfg.mode = .protectedMode ∧ ¬ InRange s seg ea 16 ∧ Raises i s .ss)

/-- R40, R101: in Protected and Virtual8086 mode an operand that passes the segment and alignment checks and to which
a row of the paging verdict applies raises #PF with the code of a row that applies. -/
def Obligations.TouchedPageFaultIsRaisedWithItsCode : Prop :=
  ∀ (i : Instr) (s : State) (seg : Seg) (ea : Dword), memOperand s i.lead i.src = some (seg, ea) → Ready i.size s →
    seg ∉ s.cfg.nonPlain → s.cfg.mode ≠ .realAddress → InRange s seg ea (operandBytes i.size) →
    Aligned s seg ea (operandBytes i.size) → ¬ NoPageFault s seg ea (operandBytes i.size) →
    ∃ p ∈ s.cfg.pageFaults, FaultsOn ((s.seg seg).base + ea) (operandBytes i.size) p ∧ Raises i s (.pf p.code) ∧
      (Exn.pf p.code).errorCode = some p.code

/-- R102, R104: which exceptions a form can raise: #MF only 64-bit forms; #GP, #SS and #PF only with a memory source; #SS
only in Protected mode with the operand in SS; #PF never in RealAddress mode. -/
def Obligations.OnlyTheListedExceptionsAreRaised : Prop :=
  ∀ (i : Instr) (s : State) (e : Exn), s.fault = none → Raises i s e →
    match e with
    | .ud => True
    | .nm => True
    | .mf => i.size = .s64
    | .gp => ∃ seg ea, memOperand s i.lead i.src = some (seg, ea)
    | .ss => s.cfg.mode = .protectedMode ∧ ∃ ea, memOperand s i.lead i.src = some (.ss, ea)
    | .pf _ => s.cfg.mode ≠ .realAddress ∧ ∃ seg ea, memOperand s i.lead i.src = some (seg, ea)

/-- R110: after a handler has cleared the cause, executing the form again gives the registers, `pc` and memory it would
have given had the cause not been there. -/
def Obligations.RestartAfterTheCauseIsCleared : Prop :=
  ∀ (i : Instr) (s t u : State) (r : Raised) (c : Cure), s.fault = none → exec i s = .next t → t.fault = some r →
    exec i (c.apply s) = .next u → u.fault = none →
    ∃ u', exec i (c.apply t.clearRaised) = .next u' ∧ u'.mm = u.mm ∧ u'.xmm = u.xmm ∧ u'.pc = u.pc ∧
      u'.fault = none ∧ KeepsRest u u'

/-! Where the model stops. -/

/-- R49: a memory form whose operand passes every check but has a byte the launch memory does not hold has no step: the
fault `noMemory` (notes/assumptions/3.md). -/
def Obligations.ReadOfAbsentMemoryIsStuck : Prop :=
  ∀ (i : Instr) (s : State) (seg : Seg) (ea : Dword), memOperand s i.lead i.src = some (seg, ea) → Ready i.size s →
    InRange s seg ea (operandBytes i.size) → Aligned s seg ea (operandBytes i.size) →
    NoPageFault s seg ea (operandBytes i.size) → Admitted s seg ea (operandBytes i.size) →
    (∃ k < operandBytes i.size, s.byteAt (byteAddr ((s.seg seg).base + ea) k) = none) →
    exec i s = .fault (.noMemory ((s.seg seg).base + ea))

/-- R37, R46, R123: a memory operand in a segment that is not plain, or (the checks passing) in a region whose read has
side effects, is refused; the refusals are the model's form of the premises (notes/assumptions/11.md). -/
def Obligations.OperandOutsideThePremisesIsRefused : Prop :=
  ∀ (i : Instr) (s : State) (seg : Seg) (ea : Dword), memOperand s i.lead i.src = some (seg, ea) → Ready i.size s →
    (seg ∈ s.cfg.nonPlain → exec i s = .refused (.segmentNotPlain seg)) ∧
    (seg ∉ s.cfg.nonPlain → InRange s seg ea (operandBytes i.size) → Aligned s seg ea (operandBytes i.size) →
      NoPageFault s seg ea (operandBytes i.size) →
      (∃ r ∈ s.cfg.devices, Touches ((s.seg seg).base + ea) (operandBytes i.size) r) →
      exec i s = .refused (.deviceOperand ((s.seg seg).base + ea)))

/-! Steps and runs. -/

/-- R19, R47: with no exception recorded and the launch premises met, a step at a `pc` whose bytes decode to an
instruction is that instruction's meaning. -/
def Obligations.StepRunsTheDecodedInstruction : Prop :=
  ∀ (s : State) (bytes : List Byte) (i : Instr) (rest : List Byte), s.fault = none → launchRefusal s = none →
    fetch s = .ok bytes → decode s.cfg bytes = .ok (i, rest) → WellFormed s.cfg i → step s = exec i s

/-- R19, R47, R121: where the text holds the encoding of a well-formed instruction at `pc`, the step is that instruction's
meaning. -/
def Obligations.StepRunsTheInstructionInTheText : Prop :=
  ∀ (s : State) (i : Instr) (before after : List Byte), s.fault = none → LaunchOk s → WellFormed s.cfg i →
    s.text = before ++ encode i ++ after → s.pc.toNat = s.textBase.toNat + before.length → step s = exec i s

/-- R109: no step leads on from a state that holds a raised exception. That the step answers the fault `raised` with the
record is the model's form of it (notes/assumptions/9.md). -/
def Obligations.RecordedExceptionIsTerminal : Prop :=
  ∀ (s : State) (r : Raised), s.fault = some r → step s = .fault (.raised r)

/-- R121: one past the last byte of the text, with no exception recorded, the run ends. The fault `endOfRun` is the model's
form of it (notes/assumptions/4.md). -/
def Obligations.RunEndsOnePastTheText : Prop :=
  ∀ (s : State), FinalState s → LaunchOk s → step s = .fault .endOfRun

/-- The model's form of the launch premises of R19 and R123 (notes/assumptions/11.md): a launch that breaks one of them is
refused at its first step. -/
def Obligations.BrokenLaunchPremiseIsRefused : Prop :=
  ∀ (s : State), s.fault = none → ¬ LaunchOk s → ∃ r, step s = .refused r

/-- R22, R35, R92, R93, R95, R96, R98, R101, R107, R108: every step keeps the invariant, from every state that meets it. Two
of its clauses speak of the model's own choices: that memory is in its canonical form (notes/assumptions/3.md), and that a
#PF code is that of a row of the paging verdict (notes/assumptions/6.md). -/
def Obligations.StepKeepsTheInvariant : Prop := ∀ s t : State, Inv s → step s = .next t → Inv t

/-- The state after reset meets the invariant (the reset values are the model's choice, notes/assumptions/1.md). -/
def Obligations.ResetMeetsTheInvariant : Prop := Inv State.reset

/-- The model's choice of reset values (notes/assumptions/1.md): after reset the launch premises hold and both operand
sizes are ready to run (R122). -/
def Obligations.ResetIsReadyForEveryForm : Prop := LaunchOk State.reset ∧ Ready .s64 State.reset ∧ Ready .s128 State.reset

/-- R13, R17, R22, R23, R47: no run of any length, from any state, writes memory, the text, a general register, a control
bit, a segment, the flags or a launch parameter; nor an mm or xmm register that no instruction it executes names as its
destination; nor, if all it executes are 128-bit forms, the x87 bookkeeping. -/
def Obligations.RunsWriteOnlyTheirDestinations : Prop :=
  ∀ (k : Nat) (s t : State), Sys2Proof.core.run k s = .next t →
    KeepsRest s t ∧
    (∀ r, (∀ i ∈ executed k s, i.size = .s64 → i.dst ≠ r) → t.getMm r = s.getMm r) ∧
    (∀ r, (∀ i ∈ executed k s, i.size = .s128 → i.dst ≠ r) → t.getXmm r = s.getXmm r) ∧
    ((∀ i ∈ executed k s, i.size = .s128) → t.x87 = s.x87)

/-- The model's own bound: from any state, more steps than a third of the text's bytes (the shortest form has 3, R60) never
all answer a next state. It rests on the model's stops: the end of the text and places outside it (notes/assumptions/4.md),
a recorded exception (notes/assumptions/9.md) and a broken launch premise (notes/assumptions/11.md). Of the chip R121 says
that it does not stop at the end of the text. -/
def Obligations.EveryRunEndsWithinTheText : Prop :=
  ∀ (k : Nat) (s t : State), s.text.length / 3 < k → Sys2Proof.core.run k s ≠ .next t

/-! Paging as a launch parameter. -/

/-- R4, R40: the launch can give `Translate(lin, n)` any verdict for every read of 8 or 16 bytes, its code included; and a
page that faults is reported for every read with a byte in it. -/
def Obligations.TranslateIsAnyVerdictFunction : Prop :=
  (∀ (c : Config) (verdict : Dword → Nat → Option FaultCode), ∃ rows : List PageFault, ∀ lin n, n = 8 ∨ n = 16 →
    Machine.translate { c with pageFaults := rows } lin n = verdict lin n) ∧
  (∀ (c : Config) (lin : Dword) (n : Nat) (bytes : Region) (code : FaultCode),
    PageFault.page bytes code ∈ c.pageFaults → Touches lin n bytes → ∃ reported, Machine.translate c lin n = some reported)
end

