-- ==== Sys2Proof/Laws/Encoding.lean ====
section
/-! SUPPORT. The pieces of an encoding read back: each leading byte, field and displacement. -/

namespace Sys2Proof

@[simp] theorem leadOf_leadByte (l : Lead) : leadOf (leadByte l) = some l := by
  cases l with
  | opSize => rfl
  | addrSize => rfl
  | segment s => cases s <;> rfl

/-- A byte that is a leading byte is that leading byte's byte. -/
theorem leadByte_of_leadOf {b : Byte} {l : Lead} (h : leadOf b = some l) : leadByte l = b := by
  unfold leadOf at h
  repeat' split at h
  all_goals (first | (cases h; subst_vars; rfl) | cases h)

@[simp] theorem leadOf_opcodeEscape : leadOf 0x0F#8 = none := rfl

@[simp] theorem widthOf_opcodeByte (wd : Width) : widthOf (opcodeByte wd) = some wd := by cases wd <;> rfl

/-- A second opcode byte of the group is that width's byte. -/
theorem opcodeByte_of_widthOf {b : Byte} {wd : Width} (h : widthOf b = some wd) : opcodeByte wd = b := by
  unfold widthOf at h
  repeat' split at h
  all_goals (first | (cases h; subst_vars; rfl) | cases h)

/-- The low part of a concatenation. -/
theorem extract_low {m n : Nat} (a : BitVec m) (b : BitVec n) : (a ++ b).extractLsb' 0 n = b := by
  ext i hi
  simp [BitVec.getLsbD_append, hi]

/-- A part of a concatenation above its low part. -/
theorem extract_high {m n : Nat} (a : BitVec m) (b : BitVec n) (k width : Nat) :
    (a ++ b).extractLsb' (n + k) width = a.extractLsb' k width := by
  ext i hi
  simp [BitVec.getLsbD_append, show ¬ n + k + i < n by omega, show n + k + i - n = k + i by omega]

@[simp] theorem fieldLo_packFields (hi : BitVec 2) (mid lo : RegNum) : fieldLo (packFields hi mid lo) = lo :=
  extract_low (hi ++ mid) lo

@[simp] theorem fieldMid_packFields (hi : BitVec 2) (mid lo : RegNum) : fieldMid (packFields hi mid lo) = mid :=
  (extract_high (hi ++ mid) lo 0 3).trans (extract_low hi mid)

@[simp] theorem fieldHi_packFields (hi : BitVec 2) (mid lo : RegNum) : fieldHi (packFields hi mid lo) = hi :=
  (extract_high (hi ++ mid) lo 3 2).trans ((extract_high hi mid 0 2).trans BitVec.extractLsb'_eq_self)

/-- A byte is its three fields. -/
theorem packFields_fields (b : Byte) : packFields (fieldHi b) (fieldMid b) (fieldLo b) = b := by
  apply BitVec.eq_of_getLsbD_eq
  intro i hi
  simp only [packFields, fieldHi, fieldMid, fieldLo, BitVec.getLsbD_append, BitVec.getLsbD_extractLsb']
  by_cases h1 : i < 3
  · simp [h1]
  · by_cases h2 : i - 3 < 3
    · simp [h1, h2]; congr 1; omega
    · simp [h1, h2, show i - 3 - 3 < 2 by omega]; congr 1; omega

/-- A leading-byte list followed by a byte that is none reads back whole. -/
theorem takeLeads_append (lead : List Lead) (b : Byte) (bs : List Byte) (h : leadOf b = none) :
    takeLeads (lead.map leadByte ++ b :: bs) = (lead, b :: bs) := by
  induction lead with
  | nil => simp [takeLeads, h]
  | cons l lead ih => simp [takeLeads, ih]

/-- The leading bytes taken and what follows them are the bytes given. -/
theorem takeLeads_bytes (bs : List Byte) : (takeLeads bs).1.map leadByte ++ (takeLeads bs).2 = bs := by
  induction bs with
  | nil => rfl
  | cons b bs ih =>
    unfold takeLeads
    split
    · rename_i l hl; simp [leadByte_of_leadOf hl, ih]
    · rfl

/-- What follows the leading bytes taken does not begin with a leading byte. -/
theorem takeLeads_stops {bs : List Byte} {b : Byte} {rest : List Byte} (h : (takeLeads bs).2 = b :: rest) :
    leadOf b = none := by
  induction bs with
  | nil => simp [takeLeads] at h
  | cons c bs ih =>
    unfold takeLeads at h
    split at h
    · exact ih h
    · rename_i hn; cases h; exact hn

/-- The leading bytes are refused exactly when one of their kinds is repeated (30_encoding.md R59). -/
theorem leadsReject_none (lead : List Lead) : leadsReject lead = none ↔ leadsOk lead = true := by
  unfold leadsReject leadsOk
  split_ifs <;> simp_all

/-- A four-byte displacement reads back. -/
theorem take32_le32 {α : Type} (f : Dword → α) (d : Dword) (bs : List Byte) :
    take32 f (le32 d ++ bs) = .ok (f d, bs) := by
  have : d.extractLsb' 24 8 ++ d.extractLsb' 16 8 ++ d.extractLsb' 8 8 ++ d.extractLsb' 0 8 = d := by
    apply BitVec.eq_of_getLsbD_eq
    intro i hi
    simp only [BitVec.getLsbD_append, BitVec.getLsbD_extractLsb']
    by_cases h1 : i < 8
    · simp [h1]
    · by_cases h2 : i - 8 < 8
      · simp [h1, h2]; congr 1; omega
      · by_cases h3 : i - 8 - 8 < 8
        · simp [h1, h2, h3]; congr 1; omega
        · simp [h1, h2, h3, show i - 8 - 8 - 8 < 8 by omega]; congr 1; omega
  simp only [le32, List.cons_append, List.nil_append, take32]
  rw [this]

/-- A two-byte displacement reads back. -/
theorem take16_le16 {α : Type} (f : BitVec 16 → α) (d : BitVec 16) (bs : List Byte) :
    take16 f (le16 d ++ bs) = .ok (f d, bs) := by
  have : d.extractLsb' 8 8 ++ d.extractLsb' 0 8 = d := by
    apply BitVec.eq_of_getLsbD_eq
    intro i hi
    simp only [BitVec.getLsbD_append, BitVec.getLsbD_extractLsb']
    by_cases h1 : i < 8
    · simp [h1]
    · simp [h1, show i - 8 < 8 by omega]; congr 1; omega
  simp only [le16, List.cons_append, List.nil_append, take16]
  rw [this]

/-- Four bytes taken as a displacement are its bytes. -/
theorem take32_ok {α : Type} {f : Dword → α} {bs rest : List Byte} {x : α} (h : take32 f bs = .ok (x, rest)) :
    ∃ d, x = f d ∧ bs = le32 d ++ rest := by
  match bs, h with
  | b0 :: b1 :: b2 :: b3 :: bs, h =>
    simp only [take32, Except.ok.injEq, Prod.mk.injEq] at h
    refine ⟨_, h.1.symm, ?_⟩
    have e0 : (b3 ++ b2 ++ b1 ++ b0).extractLsb' 0 8 = b0 := extract_low _ _
    have e1 : (b3 ++ b2 ++ b1 ++ b0).extractLsb' 8 8 = b1 := (extract_high (b3 ++ b2 ++ b1) b0 0 8).trans (extract_low _ _)
    have e2 : (b3 ++ b2 ++ b1 ++ b0).extractLsb' 16 8 = b2 :=
      (extract_high (b3 ++ b2 ++ b1) b0 8 8).trans ((extract_high (b3 ++ b2) b1 0 8).trans (extract_low _ _))
    have e3 : (b3 ++ b2 ++ b1 ++ b0).extractLsb' 24 8 = b3 :=
      (extract_high (b3 ++ b2 ++ b1) b0 16 8).trans ((extract_high (b3 ++ b2) b1 8 8).trans
        ((extract_high b3 b2 0 8).trans BitVec.extractLsb'_eq_self))
    simp only [le32, List.cons_append, List.nil_append]
    rw [e0, e1, e2, e3, h.2]

/-- Two bytes taken as a displacement are its bytes. -/
theorem take16_ok {α : Type} {f : BitVec 16 → α} {bs rest : List Byte} {x : α} (h : take16 f bs = .ok (x, rest)) :
    ∃ d, x = f d ∧ bs = le16 d ++ rest := by
  match bs, h with
  | b0 :: b1 :: bs, h =>
    simp only [take16, Except.ok.injEq, Prod.mk.injEq] at h
    refine ⟨_, h.1.symm, ?_⟩
    have e0 : (b1 ++ b0).extractLsb' 0 8 = b0 := extract_low _ _
    have e1 : (b1 ++ b0).extractLsb' 8 8 = b1 := (extract_high b1 b0 0 8).trans BitVec.extractLsb'_eq_self
    simp only [le16, List.cons_append, List.nil_append]
    rw [e0, e1, h.2]

/-- One byte taken as a displacement is that byte. -/
theorem take8_ok {α : Type} {f : Byte → α} {bs rest : List Byte} {x : α} (h : take8 f bs = .ok (x, rest)) :
    ∃ d, x = f d ∧ bs = d :: rest := by
  match bs, h with
  | b :: bs, h =>
    simp only [take8, Except.ok.injEq, Prod.mk.injEq] at h
    exact ⟨b, h.1.symm, by rw [h.2]⟩

/-- The fields of a form are what it was built from. -/
@[simp] theorem form_lead (z : OpSize) (wd : Width) (l : List Lead) (d : RegNum) (r : Src) :
    (Instr.form z wd l d r).lead = l := by cases z <;> cases wd <;> rfl

@[simp] theorem form_dst (z : OpSize) (wd : Width) (l : List Lead) (d : RegNum) (r : Src) :
    (Instr.form z wd l d r).dst = d := by cases z <;> cases wd <;> rfl

@[simp] theorem form_src (z : OpSize) (wd : Width) (l : List Lead) (d : RegNum) (r : Src) :
    (Instr.form z wd l d r).src = r := by cases z <;> cases wd <;> rfl

@[simp] theorem form_width (z : OpSize) (wd : Width) (l : List Lead) (d : RegNum) (r : Src) :
    (Instr.form z wd l d r).width = wd := by cases z <;> cases wd <;> rfl

@[simp] theorem form_size (z : OpSize) (wd : Width) (l : List Lead) (d : RegNum) (r : Src) :
    (Instr.form z wd l d r).size = z := by cases z <;> cases wd <;> rfl

/-- An instruction is the form of its own parts. -/
theorem form_self (i : Instr) : Instr.form i.size i.width i.lead i.dst i.src = i := by cases i <;> rfl

end Sys2Proof
end

