-- ==== Sys2Proof/Laws/Operands.lean ====
section
/-! SUPPORT. What the checked read of a memory operand can answer, said once: each outcome with the conditions under which
it is the outcome. -/

namespace Sys2Proof.Machine

/-- Everything `OperandRead` can answer, in the order of its steps (20_memory.md R36). -/
theorem operandRead_cases (w : Nat) (s : State) (seg : Seg) (ea : Dword) (n : Nat) :
    (seg ∈ s.cfg.nonPlain ∧ operandRead w s seg ea n = .refused (.segmentNotPlain seg)) ∨
    (seg ∉ s.cfg.nonPlain ∧ ∃ e, reportFault s.draws (rangeFault s seg ea n) (alignFault s seg ea n) = some e ∧
      operandRead w s seg ea n = .raises e) ∨
    (seg ∉ s.cfg.nonPlain ∧ rangeFault s seg ea n = none ∧ alignFault s seg ea n = none ∧
      ∃ e, pageFault s (linear s seg ea) n = some e ∧ operandRead w s seg ea n = .raises e) ∨
    (seg ∉ s.cfg.nonPlain ∧ rangeFault s seg ea n = none ∧ alignFault s seg ea n = none ∧
      pageFault s (linear s seg ea) n = none ∧
      operandRead w s seg ea n = operandValue w s (linear s seg ea) n) := by
  unfold operandRead
  by_cases hp : seg ∈ s.cfg.nonPlain
  · exact .inl ⟨hp, if_pos hp⟩
  · rw [if_neg hp]
    cases h1 : rangeFault s seg ea n <;> cases h2 : alignFault s seg ea n
    · cases h3 : pageFault s (linear s seg ea) n
      · exact .inr (.inr (.inr ⟨hp, rfl, rfl, rfl, rfl⟩))
      · exact .inr (.inr (.inl ⟨hp, rfl, rfl, _, rfl, rfl⟩))
    · exact .inr (.inl ⟨hp, _, rfl, rfl⟩)
    · exact .inr (.inl ⟨hp, _, rfl, rfl⟩)
    · exact .inr (.inl ⟨hp, _, rfl, rfl⟩)

/-- `OperandRead` when no check holds it back: the bytes. -/
theorem operandRead_of_checks {w : Nat} {s : State} {seg : Seg} {ea : Dword} {n : Nat} (hp : seg ∉ s.cfg.nonPlain)
    (h1 : rangeFault s seg ea n = none) (h2 : alignFault s seg ea n = none)
    (h3 : pageFault s (linear s seg ea) n = none) :
    operandRead w s seg ea n = operandValue w s (linear s seg ea) n := by
  simp [operandRead, hp, h1, h2, h3, reportFault]

/-- What step 4 of the checked read can answer: a device refusal, the bytes, or no memory. -/
theorem operandValue_cases (w : Nat) (s : State) (lin : Dword) (n : Nat) :
    ((∃ a ∈ operandAddrs lin n, ∃ r ∈ s.cfg.devices, regionHas r a = true) ∧
      operandValue w s lin n = .refused (.deviceOperand lin)) ∨
    ((∀ a ∈ operandAddrs lin n, ∀ r ∈ s.cfg.devices, regionHas r a = false) ∧
      ((∃ v, memRead w s lin n = some v ∧ operandValue w s lin n = .value v) ∨
       (memRead w s lin n = none ∧ operandValue w s lin n = .stuck (.noMemory lin)))) := by
  unfold operandValue
  by_cases h : ((operandAddrs lin n).any fun a => s.cfg.devices.any fun r => regionHas r a) = true
  · rw [if_pos h]
    simp only [List.any_eq_true] at h
    exact .inl ⟨h, rfl⟩
  · rw [if_neg h]
    simp only [List.any_eq_true, not_exists, not_and, Bool.not_eq_true] at h
    refine .inr ⟨h, ?_⟩
    cases memRead w s lin n with
    | none => exact .inr ⟨rfl, rfl⟩
    | some v => exact .inl ⟨v, rfl, rfl⟩

/-- A fault of the range step is #SS in Protected mode and segment SS, else #GP (20_memory.md R37, R39). -/
theorem rangeFault_some {s : State} {seg : Seg} {ea : Dword} {n : Nat} {e : Exn} (h : rangeFault s seg ea n = some e) :
    (e = .ss ∧ seg = .ss ∧ s.cfg.mode = .protectedMode) ∨ e = .gp := by
  unfold rangeFault at h
  split at h <;> split at h <;> simp_all
  split at h <;> simp_all

/-- A fault of the alignment step is #GP, of a 16-byte operand (20_memory.md R38). -/
theorem alignFault_some {s : State} {seg : Seg} {ea : Dword} {n : Nat} {e : Exn} (h : alignFault s seg ea n = some e) :
    e = .gp ∧ n = 16 ∧ (linear s seg ea).toNat % 16 ≠ 0 := by
  unfold alignFault at h
  split at h
  · rename_i hc; exact ⟨(Option.some.inj h).symm, hc⟩
  · cases h

/-- The report is one of the faults set, and there is none only when none is set (20_memory.md R36). -/
theorem reportFault_some {draw : Nat} {o1 o2 : Option Exn} {e : Exn} (h : reportFault draw o1 o2 = some e) :
    o1 = some e ∨ o2 = some e := by
  cases o1 <;> cases o2 <;> simp only [reportFault, Option.some.injEq, reduceCtorEq] at h ⊢
  · exact .inr h
  · exact .inl h
  · split at h
    · exact .inl h
    · split at h
      · exact .inl h
      · exact .inr h

/-- A fault code of the paging verdict is that of a row that applies to the read (20_memory.md R40). -/
theorem translate_some {c : Config} {lin : Dword} {n : Nat} {code : FaultCode}
    (h : translate c lin n = some code) : ∃ p ∈ pageHits c lin n, p.code = code := by
  unfold translate at h
  split at h
  · cases h
  · rename_i p hp; exact ⟨p, by simp [hp], Option.some.inj h⟩
  · rename_i p q ps hp
    refine ⟨_, ?_, Option.some.inj h⟩
    rw [hp, List.getD_eq_getElem _ _ (by simp only [List.length_cons]; exact Nat.mod_lt _ (by omega))]
    exact List.getElem_mem _

/-- The paging verdict is `Ok` exactly when no row applies to the read (20_memory.md R40). -/
theorem translate_none {c : Config} {lin : Dword} {n : Nat} :
    translate c lin n = none ↔ pageHits c lin n = [] := by
  unfold translate
  split <;> simp_all

/-- A page fault is #PF with the code of a row that applies, and not in RealAddress mode (20_memory.md R36, R40). -/
theorem pageFault_some {s : State} {lin : Dword} {n : Nat} {e : Exn} (h : pageFault s lin n = some e) :
    s.cfg.mode ≠ .realAddress ∧ ∃ p ∈ pageHits s.cfg lin n, e = .pf p.code := by
  unfold pageFault at h
  split at h
  · rename_i hm
    obtain ⟨c, hc, rfl⟩ := Option.map_eq_some_iff.mp h
    obtain ⟨p, hp, rfl⟩ := translate_some hc
    exact ⟨by simp [hm], p, hp, rfl⟩
  · cases h
  · rename_i hm
    obtain ⟨c, hc, rfl⟩ := Option.map_eq_some_iff.mp h
    obtain ⟨p, hp, rfl⟩ := translate_some hc
    exact ⟨by simp [hm], p, hp, rfl⟩

/-- A memory source operand is the checked read at its segment and effective address (30_encoding.md R61). -/
theorem source_of_memOperand {w n : Nat} {s : State} {file : RegNum → BitVec w} {lead : List Lead} {src : Src}
    {seg : Seg} {ea : Dword} (h : memOperand s lead src = some (seg, ea)) :
    source w n s file lead src = operandRead w s seg ea n := by
  cases src <;> simp_all [memOperand, source]

/-- A source operand that is no memory operand is a register. -/
theorem source_of_reg {w n : Nat} {s : State} {file : RegNum → BitVec w} {lead : List Lead} {src : Src}
    (h : memOperand s lead src = none) : ∃ r, src = .reg r ∧ source w n s file lead src = .value (file r) := by
  cases src <;> simp_all [memOperand, source]

end Sys2Proof.Machine
end

