-- ==== Sys2Proof/Laws/State.lean ====
section
/-! SUPPORT. One lemma per field per update of State, each true by definition, and what a register file reads after a
write. No later proof unfolds a record update. -/

namespace Sys2Proof.Machine

/-! Fields after `setMm`. -/

@[simp] theorem State.setMm_cfg (s : State) (i : RegNum) (v : MmWord) : (s.setMm i v).cfg = s.cfg := rfl
@[simp] theorem State.setMm_mm (s : State) (i : RegNum) (v : MmWord) : (s.setMm i v).mm = s.mm.set i.toNat v i.isLt := rfl
@[simp] theorem State.setMm_xmm (s : State) (i : RegNum) (v : MmWord) : (s.setMm i v).xmm = s.xmm := rfl
@[simp] theorem State.setMm_gpr (s : State) (i : RegNum) (v : MmWord) : (s.setMm i v).gpr = s.gpr := rfl
@[simp] theorem State.setMm_cr0em (s : State) (i : RegNum) (v : MmWord) : (s.setMm i v).cr0em = s.cr0em := rfl
@[simp] theorem State.setMm_cr0ts (s : State) (i : RegNum) (v : MmWord) : (s.setMm i v).cr0ts = s.cr0ts := rfl
@[simp] theorem State.setMm_cr4osfxsr (s : State) (i : RegNum) (v : MmWord) : (s.setMm i v).cr4osfxsr = s.cr4osfxsr := rfl
@[simp] theorem State.setMm_x87pending (s : State) (i : RegNum) (v : MmWord) : (s.setMm i v).x87pending = s.x87pending := rfl
@[simp] theorem State.setMm_x87 (s : State) (i : RegNum) (v : MmWord) : (s.setMm i v).x87 = s.x87 := rfl
@[simp] theorem State.setMm_segs (s : State) (i : RegNum) (v : MmWord) : (s.setMm i v).segs = s.segs := rfl
@[simp] theorem State.setMm_pc (s : State) (i : RegNum) (v : MmWord) : (s.setMm i v).pc = s.pc := rfl
@[simp] theorem State.setMm_flags (s : State) (i : RegNum) (v : MmWord) : (s.setMm i v).flags = s.flags := rfl
@[simp] theorem State.setMm_mem (s : State) (i : RegNum) (v : MmWord) : (s.setMm i v).mem = s.mem := rfl
@[simp] theorem State.setMm_text (s : State) (i : RegNum) (v : MmWord) : (s.setMm i v).text = s.text := rfl
@[simp] theorem State.setMm_textBase (s : State) (i : RegNum) (v : MmWord) : (s.setMm i v).textBase = s.textBase := rfl
@[simp] theorem State.setMm_fault (s : State) (i : RegNum) (v : MmWord) : (s.setMm i v).fault = s.fault := rfl
@[simp] theorem State.setMm_draws (s : State) (i : RegNum) (v : MmWord) : (s.setMm i v).draws = s.draws := rfl

/-! Fields after `setXmm`. -/

@[simp] theorem State.setXmm_cfg (s : State) (i : RegNum) (v : XmmWord) : (s.setXmm i v).cfg = s.cfg := rfl
@[simp] theorem State.setXmm_mm (s : State) (i : RegNum) (v : XmmWord) : (s.setXmm i v).mm = s.mm := rfl
@[simp] theorem State.setXmm_xmm (s : State) (i : RegNum) (v : XmmWord) : (s.setXmm i v).xmm = s.xmm.set i.toNat v i.isLt := rfl
@[simp] theorem State.setXmm_gpr (s : State) (i : RegNum) (v : XmmWord) : (s.setXmm i v).gpr = s.gpr := rfl
@[simp] theorem State.setXmm_cr0em (s : State) (i : RegNum) (v : XmmWord) : (s.setXmm i v).cr0em = s.cr0em := rfl
@[simp] theorem State.setXmm_cr0ts (s : State) (i : RegNum) (v : XmmWord) : (s.setXmm i v).cr0ts = s.cr0ts := rfl
@[simp] theorem State.setXmm_cr4osfxsr (s : State) (i : RegNum) (v : XmmWord) : (s.setXmm i v).cr4osfxsr = s.cr4osfxsr := rfl
@[simp] theorem State.setXmm_x87pending (s : State) (i : RegNum) (v : XmmWord) : (s.setXmm i v).x87pending = s.x87pending := rfl
@[simp] theorem State.setXmm_x87 (s : State) (i : RegNum) (v : XmmWord) : (s.setXmm i v).x87 = s.x87 := rfl
@[simp] theorem State.setXmm_segs (s : State) (i : RegNum) (v : XmmWord) : (s.setXmm i v).segs = s.segs := rfl
@[simp] theorem State.setXmm_pc (s : State) (i : RegNum) (v : XmmWord) : (s.setXmm i v).pc = s.pc := rfl
@[simp] theorem State.setXmm_flags (s : State) (i : RegNum) (v : XmmWord) : (s.setXmm i v).flags = s.flags := rfl
@[simp] theorem State.setXmm_mem (s : State) (i : RegNum) (v : XmmWord) : (s.setXmm i v).mem = s.mem := rfl
@[simp] theorem State.setXmm_text (s : State) (i : RegNum) (v : XmmWord) : (s.setXmm i v).text = s.text := rfl
@[simp] theorem State.setXmm_textBase (s : State) (i : RegNum) (v : XmmWord) : (s.setXmm i v).textBase = s.textBase := rfl
@[simp] theorem State.setXmm_fault (s : State) (i : RegNum) (v : XmmWord) : (s.setXmm i v).fault = s.fault := rfl
@[simp] theorem State.setXmm_draws (s : State) (i : RegNum) (v : XmmWord) : (s.setXmm i v).draws = s.draws := rfl

/-! Fields after `drawX87`. -/

@[simp] theorem State.drawX87_cfg (s : State) : s.drawX87.cfg = s.cfg := rfl
@[simp] theorem State.drawX87_mm (s : State) : s.drawX87.mm = s.mm := rfl
@[simp] theorem State.drawX87_xmm (s : State) : s.drawX87.xmm = s.xmm := rfl
@[simp] theorem State.drawX87_gpr (s : State) : s.drawX87.gpr = s.gpr := rfl
@[simp] theorem State.drawX87_cr0em (s : State) : s.drawX87.cr0em = s.cr0em := rfl
@[simp] theorem State.drawX87_cr0ts (s : State) : s.drawX87.cr0ts = s.cr0ts := rfl
@[simp] theorem State.drawX87_cr4osfxsr (s : State) : s.drawX87.cr4osfxsr = s.cr4osfxsr := rfl
@[simp] theorem State.drawX87_x87pending (s : State) : s.drawX87.x87pending = s.x87pending := rfl
@[simp] theorem State.drawX87_x87 (s : State) : s.drawX87.x87 = freeX87 s.draws := rfl
@[simp] theorem State.drawX87_segs (s : State) : s.drawX87.segs = s.segs := rfl
@[simp] theorem State.drawX87_pc (s : State) : s.drawX87.pc = s.pc := rfl
@[simp] theorem State.drawX87_flags (s : State) : s.drawX87.flags = s.flags := rfl
@[simp] theorem State.drawX87_mem (s : State) : s.drawX87.mem = s.mem := rfl
@[simp] theorem State.drawX87_text (s : State) : s.drawX87.text = s.text := rfl
@[simp] theorem State.drawX87_textBase (s : State) : s.drawX87.textBase = s.textBase := rfl
@[simp] theorem State.drawX87_fault (s : State) : s.drawX87.fault = s.fault := rfl
@[simp] theorem State.drawX87_draws (s : State) : s.drawX87.draws = s.draws := rfl

/-! Fields after `settleFlags`. -/

@[simp] theorem State.settleFlags_cfg (s : State) : s.settleFlags.cfg = s.cfg := rfl
@[simp] theorem State.settleFlags_mm (s : State) : s.settleFlags.mm = s.mm := rfl
@[simp] theorem State.settleFlags_xmm (s : State) : s.settleFlags.xmm = s.xmm := rfl
@[simp] theorem State.settleFlags_gpr (s : State) : s.settleFlags.gpr = s.gpr := rfl
@[simp] theorem State.settleFlags_cr0em (s : State) : s.settleFlags.cr0em = s.cr0em := rfl
@[simp] theorem State.settleFlags_cr0ts (s : State) : s.settleFlags.cr0ts = s.cr0ts := rfl
@[simp] theorem State.settleFlags_cr4osfxsr (s : State) : s.settleFlags.cr4osfxsr = s.cr4osfxsr := rfl
@[simp] theorem State.settleFlags_x87pending (s : State) : s.settleFlags.x87pending = s.x87pending := rfl
@[simp] theorem State.settleFlags_x87 (s : State) : s.settleFlags.x87 = s.x87 := rfl
@[simp] theorem State.settleFlags_segs (s : State) : s.settleFlags.segs = s.segs := rfl
@[simp] theorem State.settleFlags_pc (s : State) : s.settleFlags.pc = s.pc := rfl
@[simp] theorem State.settleFlags_flags (s : State) : s.settleFlags.flags = s.flags := rfl
@[simp] theorem State.settleFlags_mem (s : State) : s.settleFlags.mem = s.mem := rfl
@[simp] theorem State.settleFlags_text (s : State) : s.settleFlags.text = s.text := rfl
@[simp] theorem State.settleFlags_textBase (s : State) : s.settleFlags.textBase = s.textBase := rfl
@[simp] theorem State.settleFlags_fault (s : State) : s.settleFlags.fault = s.fault := rfl
@[simp] theorem State.settleFlags_draws (s : State) : s.settleFlags.draws = s.draws := rfl

/-! Fields after `advance`. -/

@[simp] theorem State.advance_cfg (s : State) (len : Nat) : (s.advance len).cfg = s.cfg := rfl
@[simp] theorem State.advance_mm (s : State) (len : Nat) : (s.advance len).mm = s.mm := rfl
@[simp] theorem State.advance_xmm (s : State) (len : Nat) : (s.advance len).xmm = s.xmm := rfl
@[simp] theorem State.advance_gpr (s : State) (len : Nat) : (s.advance len).gpr = s.gpr := rfl
@[simp] theorem State.advance_cr0em (s : State) (len : Nat) : (s.advance len).cr0em = s.cr0em := rfl
@[simp] theorem State.advance_cr0ts (s : State) (len : Nat) : (s.advance len).cr0ts = s.cr0ts := rfl
@[simp] theorem State.advance_cr4osfxsr (s : State) (len : Nat) : (s.advance len).cr4osfxsr = s.cr4osfxsr := rfl
@[simp] theorem State.advance_x87pending (s : State) (len : Nat) : (s.advance len).x87pending = s.x87pending := rfl
@[simp] theorem State.advance_x87 (s : State) (len : Nat) : (s.advance len).x87 = s.x87 := rfl
@[simp] theorem State.advance_segs (s : State) (len : Nat) : (s.advance len).segs = s.segs := rfl
@[simp] theorem State.advance_pc (s : State) (len : Nat) : (s.advance len).pc = s.pc + BitVec.ofNat 32 len := rfl
@[simp] theorem State.advance_flags (s : State) (len : Nat) : (s.advance len).flags = s.flags := rfl
@[simp] theorem State.advance_mem (s : State) (len : Nat) : (s.advance len).mem = s.mem := rfl
@[simp] theorem State.advance_text (s : State) (len : Nat) : (s.advance len).text = s.text := rfl
@[simp] theorem State.advance_textBase (s : State) (len : Nat) : (s.advance len).textBase = s.textBase := rfl
@[simp] theorem State.advance_fault (s : State) (len : Nat) : (s.advance len).fault = s.fault := rfl
@[simp] theorem State.advance_draws (s : State) (len : Nat) : (s.advance len).draws = s.draws := rfl

/-! Fields after `tick`. -/

@[simp] theorem State.tick_cfg (s : State) : s.tick.cfg = s.cfg := rfl
@[simp] theorem State.tick_mm (s : State) : s.tick.mm = s.mm := rfl
@[simp] theorem State.tick_xmm (s : State) : s.tick.xmm = s.xmm := rfl
@[simp] theorem State.tick_gpr (s : State) : s.tick.gpr = s.gpr := rfl
@[simp] theorem State.tick_cr0em (s : State) : s.tick.cr0em = s.cr0em := rfl
@[simp] theorem State.tick_cr0ts (s : State) : s.tick.cr0ts = s.cr0ts := rfl
@[simp] theorem State.tick_cr4osfxsr (s : State) : s.tick.cr4osfxsr = s.cr4osfxsr := rfl
@[simp] theorem State.tick_x87pending (s : State) : s.tick.x87pending = s.x87pending := rfl
@[simp] theorem State.tick_x87 (s : State) : s.tick.x87 = s.x87 := rfl
@[simp] theorem State.tick_segs (s : State) : s.tick.segs = s.segs := rfl
@[simp] theorem State.tick_pc (s : State) : s.tick.pc = s.pc := rfl
@[simp] theorem State.tick_flags (s : State) : s.tick.flags = s.flags := rfl
@[simp] theorem State.tick_mem (s : State) : s.tick.mem = s.mem := rfl
@[simp] theorem State.tick_text (s : State) : s.tick.text = s.text := rfl
@[simp] theorem State.tick_textBase (s : State) : s.tick.textBase = s.textBase := rfl
@[simp] theorem State.tick_fault (s : State) : s.tick.fault = s.fault := rfl
@[simp] theorem State.tick_draws (s : State) : s.tick.draws = s.draws + 1 := rfl

/-! Fields after `record`. -/

@[simp] theorem State.record_cfg (s : State) (r : Raised) : (s.record r).cfg = s.cfg := rfl
@[simp] theorem State.record_mm (s : State) (r : Raised) : (s.record r).mm = s.mm := rfl
@[simp] theorem State.record_xmm (s : State) (r : Raised) : (s.record r).xmm = s.xmm := rfl
@[simp] theorem State.record_gpr (s : State) (r : Raised) : (s.record r).gpr = s.gpr := rfl
@[simp] theorem State.record_cr0em (s : State) (r : Raised) : (s.record r).cr0em = s.cr0em := rfl
@[simp] theorem State.record_cr0ts (s : State) (r : Raised) : (s.record r).cr0ts = s.cr0ts := rfl
@[simp] theorem State.record_cr4osfxsr (s : State) (r : Raised) : (s.record r).cr4osfxsr = s.cr4osfxsr := rfl
@[simp] theorem State.record_x87pending (s : State) (r : Raised) : (s.record r).x87pending = s.x87pending := rfl
@[simp] theorem State.record_x87 (s : State) (r : Raised) : (s.record r).x87 = s.x87 := rfl
@[simp] theorem State.record_segs (s : State) (r : Raised) : (s.record r).segs = s.segs := rfl
@[simp] theorem State.record_pc (s : State) (r : Raised) : (s.record r).pc = s.pc := rfl
@[simp] theorem State.record_flags (s : State) (r : Raised) : (s.record r).flags = s.flags := rfl
@[simp] theorem State.record_mem (s : State) (r : Raised) : (s.record r).mem = s.mem := rfl
@[simp] theorem State.record_text (s : State) (r : Raised) : (s.record r).text = s.text := rfl
@[simp] theorem State.record_textBase (s : State) (r : Raised) : (s.record r).textBase = s.textBase := rfl
@[simp] theorem State.record_fault (s : State) (r : Raised) : (s.record r).fault = some r := rfl
@[simp] theorem State.record_draws (s : State) (r : Raised) : (s.record r).draws = s.draws := rfl

/-! Fields after `clearRaised`. -/

@[simp] theorem State.clearRaised_cfg (s : State) : s.clearRaised.cfg = s.cfg := rfl
@[simp] theorem State.clearRaised_mm (s : State) : s.clearRaised.mm = s.mm := rfl
@[simp] theorem State.clearRaised_xmm (s : State) : s.clearRaised.xmm = s.xmm := rfl
@[simp] theorem State.clearRaised_gpr (s : State) : s.clearRaised.gpr = s.gpr := rfl
@[simp] theorem State.clearRaised_cr0em (s : State) : s.clearRaised.cr0em = s.cr0em := rfl
@[simp] theorem State.clearRaised_cr0ts (s : State) : s.clearRaised.cr0ts = s.cr0ts := rfl
@[simp] theorem State.clearRaised_cr4osfxsr (s : State) : s.clearRaised.cr4osfxsr = s.cr4osfxsr := rfl
@[simp] theorem State.clearRaised_x87pending (s : State) : s.clearRaised.x87pending = s.x87pending := rfl
@[simp] theorem State.clearRaised_x87 (s : State) : s.clearRaised.x87 = s.x87 := rfl
@[simp] theorem State.clearRaised_segs (s : State) : s.clearRaised.segs = s.segs := rfl
@[simp] theorem State.clearRaised_pc (s : State) : s.clearRaised.pc = s.pc := rfl
@[simp] theorem State.clearRaised_flags (s : State) : s.clearRaised.flags = s.flags := rfl
@[simp] theorem State.clearRaised_mem (s : State) : s.clearRaised.mem = s.mem := rfl
@[simp] theorem State.clearRaised_text (s : State) : s.clearRaised.text = s.text := rfl
@[simp] theorem State.clearRaised_textBase (s : State) : s.clearRaised.textBase = s.textBase := rfl
@[simp] theorem State.clearRaised_fault (s : State) : s.clearRaised.fault = none := rfl
@[simp] theorem State.clearRaised_draws (s : State) : s.clearRaised.draws = s.draws := rfl

/-! Fields after `loadText`. -/

@[simp] theorem State.loadText_cfg (s : State) (bytes : List Byte) : (s.loadText bytes).cfg = s.cfg := rfl
@[simp] theorem State.loadText_mm (s : State) (bytes : List Byte) : (s.loadText bytes).mm = s.mm := rfl
@[simp] theorem State.loadText_xmm (s : State) (bytes : List Byte) : (s.loadText bytes).xmm = s.xmm := rfl
@[simp] theorem State.loadText_gpr (s : State) (bytes : List Byte) : (s.loadText bytes).gpr = s.gpr := rfl
@[simp] theorem State.loadText_cr0em (s : State) (bytes : List Byte) : (s.loadText bytes).cr0em = s.cr0em := rfl
@[simp] theorem State.loadText_cr0ts (s : State) (bytes : List Byte) : (s.loadText bytes).cr0ts = s.cr0ts := rfl
@[simp] theorem State.loadText_cr4osfxsr (s : State) (bytes : List Byte) : (s.loadText bytes).cr4osfxsr = s.cr4osfxsr := rfl
@[simp] theorem State.loadText_x87pending (s : State) (bytes : List Byte) : (s.loadText bytes).x87pending = s.x87pending := rfl
@[simp] theorem State.loadText_x87 (s : State) (bytes : List Byte) : (s.loadText bytes).x87 = s.x87 := rfl
@[simp] theorem State.loadText_segs (s : State) (bytes : List Byte) : (s.loadText bytes).segs = s.segs := rfl
@[simp] theorem State.loadText_pc (s : State) (bytes : List Byte) : (s.loadText bytes).pc = s.pc := rfl
@[simp] theorem State.loadText_flags (s : State) (bytes : List Byte) : (s.loadText bytes).flags = s.flags := rfl
@[simp] theorem State.loadText_mem (s : State) (bytes : List Byte) : (s.loadText bytes).mem = s.mem := rfl
@[simp] theorem State.loadText_text (s : State) (bytes : List Byte) : (s.loadText bytes).text = bytes := rfl
@[simp] theorem State.loadText_textBase (s : State) (bytes : List Byte) : (s.loadText bytes).textBase = s.pc := rfl
@[simp] theorem State.loadText_fault (s : State) (bytes : List Byte) : (s.loadText bytes).fault = none := rfl
@[simp] theorem State.loadText_draws (s : State) (bytes : List Byte) : (s.loadText bytes).draws = s.draws := rfl

/-! Fields after `complete64`. -/

@[simp] theorem complete64_cfg (d : RegNum) (r : MmWord) (len : Nat) (s : State) : (complete64 d r len s).cfg = s.cfg := rfl
@[simp] theorem complete64_mm (d : RegNum) (r : MmWord) (len : Nat) (s : State) : (complete64 d r len s).mm = s.mm.set d.toNat r d.isLt := rfl
@[simp] theorem complete64_xmm (d : RegNum) (r : MmWord) (len : Nat) (s : State) : (complete64 d r len s).xmm = s.xmm := rfl
@[simp] theorem complete64_gpr (d : RegNum) (r : MmWord) (len : Nat) (s : State) : (complete64 d r len s).gpr = s.gpr := rfl
@[simp] theorem complete64_cr0em (d : RegNum) (r : MmWord) (len : Nat) (s : State) : (complete64 d r len s).cr0em = s.cr0em := rfl
@[simp] theorem complete64_cr0ts (d : RegNum) (r : MmWord) (len : Nat) (s : State) : (complete64 d r len s).cr0ts = s.cr0ts := rfl
@[simp] theorem complete64_cr4osfxsr (d : RegNum) (r : MmWord) (len : Nat) (s : State) : (complete64 d r len s).cr4osfxsr = s.cr4osfxsr := rfl
@[simp] theorem complete64_x87pending (d : RegNum) (r : MmWord) (len : Nat) (s : State) : (complete64 d r len s).x87pending = s.x87pending := rfl
@[simp] theorem complete64_x87 (d : RegNum) (r : MmWord) (len : Nat) (s : State) : (complete64 d r len s).x87 = freeX87 s.draws := rfl
@[simp] theorem complete64_segs (d : RegNum) (r : MmWord) (len : Nat) (s : State) : (complete64 d r len s).segs = s.segs := rfl
@[simp] theorem complete64_pc (d : RegNum) (r : MmWord) (len : Nat) (s : State) : (complete64 d r len s).pc = s.pc + BitVec.ofNat 32 len := rfl
@[simp] theorem complete64_flags (d : RegNum) (r : MmWord) (len : Nat) (s : State) : (complete64 d r len s).flags = s.flags := rfl
@[simp] theorem complete64_mem (d : RegNum) (r : MmWord) (len : Nat) (s : State) : (complete64 d r len s).mem = s.mem := rfl
@[simp] theorem complete64_text (d : RegNum) (r : MmWord) (len : Nat) (s : State) : (complete64 d r len s).text = s.text := rfl
@[simp] theorem complete64_textBase (d : RegNum) (r : MmWord) (len : Nat) (s : State) : (complete64 d r len s).textBase = s.textBase := rfl
@[simp] theorem complete64_fault (d : RegNum) (r : MmWord) (len : Nat) (s : State) : (complete64 d r len s).fault = s.fault := rfl
@[simp] theorem complete64_draws (d : RegNum) (r : MmWord) (len : Nat) (s : State) : (complete64 d r len s).draws = s.draws + 1 := rfl

/-! Fields after `complete128`. -/

@[simp] theorem complete128_cfg (d : RegNum) (r : XmmWord) (len : Nat) (s : State) : (complete128 d r len s).cfg = s.cfg := rfl
@[simp] theorem complete128_mm (d : RegNum) (r : XmmWord) (len : Nat) (s : State) : (complete128 d r len s).mm = s.mm := rfl
@[simp] theorem complete128_xmm (d : RegNum) (r : XmmWord) (len : Nat) (s : State) : (complete128 d r len s).xmm = s.xmm.set d.toNat r d.isLt := rfl
@[simp] theorem complete128_gpr (d : RegNum) (r : XmmWord) (len : Nat) (s : State) : (complete128 d r len s).gpr = s.gpr := rfl
@[simp] theorem complete128_cr0em (d : RegNum) (r : XmmWord) (len : Nat) (s : State) : (complete128 d r len s).cr0em = s.cr0em := rfl
@[simp] theorem complete128_cr0ts (d : RegNum) (r : XmmWord) (len : Nat) (s : State) : (complete128 d r len s).cr0ts = s.cr0ts := rfl
@[simp] theorem complete128_cr4osfxsr (d : RegNum) (r : XmmWord) (len : Nat) (s : State) : (complete128 d r len s).cr4osfxsr = s.cr4osfxsr := rfl
@[simp] theorem complete128_x87pending (d : RegNum) (r : XmmWord) (len : Nat) (s : State) : (complete128 d r len s).x87pending = s.x87pending := rfl
@[simp] theorem complete128_x87 (d : RegNum) (r : XmmWord) (len : Nat) (s : State) : (complete128 d r len s).x87 = s.x87 := rfl
@[simp] theorem complete128_segs (d : RegNum) (r : XmmWord) (len : Nat) (s : State) : (complete128 d r len s).segs = s.segs := rfl
@[simp] theorem complete128_pc (d : RegNum) (r : XmmWord) (len : Nat) (s : State) : (complete128 d r len s).pc = s.pc + BitVec.ofNat 32 len := rfl
@[simp] theorem complete128_flags (d : RegNum) (r : XmmWord) (len : Nat) (s : State) : (complete128 d r len s).flags = s.flags := rfl
@[simp] theorem complete128_mem (d : RegNum) (r : XmmWord) (len : Nat) (s : State) : (complete128 d r len s).mem = s.mem := rfl
@[simp] theorem complete128_text (d : RegNum) (r : XmmWord) (len : Nat) (s : State) : (complete128 d r len s).text = s.text := rfl
@[simp] theorem complete128_textBase (d : RegNum) (r : XmmWord) (len : Nat) (s : State) : (complete128 d r len s).textBase = s.textBase := rfl
@[simp] theorem complete128_fault (d : RegNum) (r : XmmWord) (len : Nat) (s : State) : (complete128 d r len s).fault = s.fault := rfl
@[simp] theorem complete128_draws (d : RegNum) (r : XmmWord) (len : Nat) (s : State) : (complete128 d r len s).draws = s.draws + 1 := rfl

/-! Fields after `raise`. -/

@[simp] theorem raise_cfg (e : Exn) (s : State) : (raise e s).cfg = s.cfg := rfl
@[simp] theorem raise_mm (e : Exn) (s : State) : (raise e s).mm = s.mm := rfl
@[simp] theorem raise_xmm (e : Exn) (s : State) : (raise e s).xmm = s.xmm := rfl
@[simp] theorem raise_gpr (e : Exn) (s : State) : (raise e s).gpr = s.gpr := rfl
@[simp] theorem raise_cr0em (e : Exn) (s : State) : (raise e s).cr0em = s.cr0em := rfl
@[simp] theorem raise_cr0ts (e : Exn) (s : State) : (raise e s).cr0ts = s.cr0ts := rfl
@[simp] theorem raise_cr4osfxsr (e : Exn) (s : State) : (raise e s).cr4osfxsr = s.cr4osfxsr := rfl
@[simp] theorem raise_x87pending (e : Exn) (s : State) : (raise e s).x87pending = s.x87pending := rfl
@[simp] theorem raise_x87 (e : Exn) (s : State) : (raise e s).x87 = s.x87 := rfl
@[simp] theorem raise_segs (e : Exn) (s : State) : (raise e s).segs = s.segs := rfl
@[simp] theorem raise_pc (e : Exn) (s : State) : (raise e s).pc = s.pc := rfl
@[simp] theorem raise_flags (e : Exn) (s : State) : (raise e s).flags = s.flags := rfl
@[simp] theorem raise_mem (e : Exn) (s : State) : (raise e s).mem = s.mem := rfl
@[simp] theorem raise_text (e : Exn) (s : State) : (raise e s).text = s.text := rfl
@[simp] theorem raise_textBase (e : Exn) (s : State) : (raise e s).textBase = s.textBase := rfl
@[simp] theorem raise_fault (e : Exn) (s : State) : (raise e s).fault = some ⟨e, s.pc⟩ := rfl
@[simp] theorem raise_draws (e : Exn) (s : State) : (raise e s).draws = s.draws + 1 := rfl

/-! Reading a register file after a write. -/

@[simp] theorem getMm_setMm_self (s : State) (i : RegNum) (v : MmWord) : (s.setMm i v).getMm i = v := by
  simp [State.getMm]

@[simp] theorem getMm_setMm_other (s : State) (i j : RegNum) (v : MmWord) (h : j ≠ i) :
    (s.setMm i v).getMm j = s.getMm j := by
  have : i.toNat ≠ j.toNat := fun e => h (BitVec.eq_of_toNat_eq e.symm)
  simp [State.getMm, this]

@[simp] theorem getXmm_setXmm_self (s : State) (i : RegNum) (v : XmmWord) : (s.setXmm i v).getXmm i = v := by
  simp [State.getXmm]

@[simp] theorem getXmm_setXmm_other (s : State) (i j : RegNum) (v : XmmWord) (h : j ≠ i) :
    (s.setXmm i v).getXmm j = s.getXmm j := by
  have : i.toNat ≠ j.toNat := fun e => h (BitVec.eq_of_toNat_eq e.symm)
  simp [State.getXmm, this]

/-- Registers read the same in states with the same file. -/
theorem getMm_congr {s t : State} (h : t.mm = s.mm) (i : RegNum) : t.getMm i = s.getMm i := by
  simp [State.getMm, h]

theorem getXmm_congr {s t : State} (h : t.xmm = s.xmm) (i : RegNum) : t.getXmm i = s.getXmm i := by
  simp [State.getXmm, h]

@[simp] theorem complete64_getMm_self (d : RegNum) (r : MmWord) (len : Nat) (s : State) :
    (complete64 d r len s).getMm d = r := getMm_setMm_self s d r

theorem complete64_getMm_other (d j : RegNum) (r : MmWord) (len : Nat) (s : State) (h : j ≠ d) :
    (complete64 d r len s).getMm j = s.getMm j := getMm_setMm_other s d j r h

@[simp] theorem complete128_getXmm_self (d : RegNum) (r : XmmWord) (len : Nat) (s : State) :
    (complete128 d r len s).getXmm d = r := getXmm_setXmm_self s d r

theorem complete128_getXmm_other (d j : RegNum) (r : XmmWord) (len : Nat) (s : State) (h : j ≠ d) :
    (complete128 d r len s).getXmm j = s.getXmm j := getXmm_setXmm_other s d j r h

/-- A byte reads the same in states with the same launch memory map and the same memory. -/
theorem byteAt_congr {s t : State} (hc : t.cfg = s.cfg) (hm : t.mem = s.mem) (a : Nat) : t.byteAt a = s.byteAt a := by
  simp [State.byteAt, hc, hm]

/-- A segment is the same in states with the same segments. -/
theorem seg_congr {s t : State} (h : t.segs = s.segs) (g : Seg) : t.seg g = s.seg g := by
  cases g <;> simp [State.seg, h]

end Sys2Proof.Machine
end

