-- ==== Sys2Proof/Laws/Exec.lean ====
section
/-! SUPPORT. What an instruction and the checks before its operand can do, said once. -/

namespace Sys2Proof.Machine

/-- The meaning of every 64-bit form (40_pcmpgt.md R71). -/
theorem exec_of_s64 {i : Instr} (h : i.size = .s64) (s : State) :
    exec i s = run64 (widthBits i.width) i.lead i.dst i.src s := by
  cases i <;> first | rfl | simp [Instr.size] at h

/-- The meaning of every 128-bit form (40_pcmpgt.md R71). -/
theorem exec_of_s128 {i : Instr} (h : i.size = .s128) (s : State) :
    exec i s = run128 (widthBits i.width) i.lead i.dst i.src s := by
  cases i <;> first | rfl | simp [Instr.size] at h

/-- Everything the checks before the operand can answer, each with its condition (60_exceptions.md R107). -/
theorem preChecks_cases (size : OpSize) (s : State) :
    (s.cr0em = true ∧ preChecks size s = some .ud) ∨
    (s.cr0em = false ∧ size = .s128 ∧ s.cr4osfxsr = false ∧ preChecks size s = some .ud) ∨
    (s.cr0em = false ∧ (size = .s128 → s.cr4osfxsr = true) ∧ s.cr0ts = true ∧ preChecks size s = some .nm) ∨
    (s.cr0em = false ∧ s.cr0ts = false ∧ size = .s64 ∧ s.x87pending = true ∧
      (s.cfg.mode = .protectedMode ∨ s.cfg.mfOutsideProtected = true) ∧ preChecks size s = some .mf) ∨
    (s.cr0em = false ∧ s.cr0ts = false ∧ (size = .s128 → s.cr4osfxsr = true) ∧
      (size = .s64 → ¬ (s.x87pending = true ∧ (s.cfg.mode = .protectedMode ∨ s.cfg.mfOutsideProtected = true))) ∧
      preChecks size s = none) := by
  unfold preChecks
  by_cases h1 : s.cr0em = true
  · exact .inl ⟨h1, if_pos h1⟩
  rw [if_neg h1]
  have h1 : s.cr0em = false := Bool.not_eq_true _ ▸ h1
  by_cases h2 : size = .s128 ∧ s.cr4osfxsr = false
  · exact .inr (.inl ⟨h1, h2.1, h2.2, if_pos h2⟩)
  rw [if_neg h2]
  have h2 : size = .s128 → s.cr4osfxsr = true := fun hs => Bool.not_eq_false _ ▸ fun h => h2 ⟨hs, h⟩
  by_cases h3 : s.cr0ts = true
  · exact .inr (.inr (.inl ⟨h1, h2, h3, if_pos h3⟩))
  rw [if_neg h3]
  have h3 : s.cr0ts = false := Bool.not_eq_true _ ▸ h3
  by_cases h4 : size = .s64 ∧ s.x87pending = true ∧ (s.cfg.mode = .protectedMode ∨ s.cfg.mfOutsideProtected = true)
  · exact .inr (.inr (.inr (.inl ⟨h1, h3, h4.1, h4.2.1, h4.2.2, if_pos h4⟩)))
  · exact .inr (.inr (.inr (.inr ⟨h1, h3, h2, fun hs h => h4 ⟨hs, h⟩, if_neg h4⟩)))

/-- Everything the common execution sequence can do (40_pcmpgt.md R71, 60_exceptions.md R108). -/
theorem runForm_cases {w : Nat} (pre : Option Exn) (src : Operand w) (done : BitVec w → State → State) (s : State) :
    (∃ e, (pre = some e ∨ pre = none ∧ src = .raises e) ∧ runForm pre src done s = .next (raise e s)) ∨
    (∃ b, pre = none ∧ src = .value b ∧ runForm pre src done s = .next (done b s)) ∨
    (∃ f, pre = none ∧ src = .stuck f ∧ runForm pre src done s = .fault f) ∨
    (∃ r, pre = none ∧ src = .refused r ∧ runForm pre src done s = .refused r) := by
  cases pre with
  | some e => exact .inl ⟨e, .inl rfl, rfl⟩
  | none =>
    cases src with
    | value b => exact .inr (.inl ⟨b, rfl, rfl, rfl⟩)
    | raises e => exact .inl ⟨e, .inr ⟨rfl, rfl⟩, rfl⟩
    | stuck f => exact .inr (.inr (.inl ⟨f, rfl, rfl, rfl⟩))
    | refused r => exact .inr (.inr (.inr ⟨r, rfl, rfl, rfl⟩))

/-- What an instruction that answers a next state did: it raised an exception, or it completed (10_state.md R23,
40_pcmpgt.md R71). -/
theorem exec_next_cases {i : Instr} {s t : State} (h : exec i s = .next t) :
    (∃ e, t = raise e s ∧ (preChecks i.size s = some e ∨ preChecks i.size s = none ∧
      ((i.size = .s64 ∧ source64 s i.lead i.src = .raises e) ∨
       (i.size = .s128 ∧ source128 s i.lead i.src = .raises e)))) ∨
    (i.size = .s64 ∧ preChecks .s64 s = none ∧ ∃ b, source64 s i.lead i.src = .value b ∧
      t = complete64 i.dst (pcmpgt (widthBits i.width) (s.getMm i.dst) b) (lengthOf i.lead i.src) s) ∨
    (i.size = .s128 ∧ preChecks .s128 s = none ∧ ∃ b, source128 s i.lead i.src = .value b ∧
      t = complete128 i.dst (pcmpgt (widthBits i.width) (s.getXmm i.dst) b) (lengthOf i.lead i.src) s) := by
  cases hs : i.size with
  | s64 =>
    rw [exec_of_s64 hs, run64] at h
    rcases runForm_cases (preChecks .s64 s) (source64 s i.lead i.src)
      (fun b s => complete64 i.dst (pcmpgt (widthBits i.width) (s.getMm i.dst) b) (lengthOf i.lead i.src) s) s with
      ⟨e, hc, hr⟩ | ⟨b, hp, hv, hr⟩ | ⟨f, -, -, hr⟩ | ⟨r, -, -, hr⟩ <;> rw [hr] at h <;> cases h
    · exact .inl ⟨e, rfl, hc.imp id fun h => ⟨h.1, .inl ⟨rfl, h.2⟩⟩⟩
    · exact .inr (.inl ⟨rfl, hp, b, hv, rfl⟩)
  | s128 =>
    rw [exec_of_s128 hs, run128] at h
    rcases runForm_cases (preChecks .s128 s) (source128 s i.lead i.src)
      (fun b s => complete128 i.dst (pcmpgt (widthBits i.width) (s.getXmm i.dst) b) (lengthOf i.lead i.src) s) s with
      ⟨e, hc, hr⟩ | ⟨b, hp, hv, hr⟩ | ⟨f, -, -, hr⟩ | ⟨r, -, -, hr⟩ <;> rw [hr] at h <;> cases h
    · exact .inl ⟨e, rfl, hc.imp id fun h => ⟨h.1, .inr ⟨rfl, h.2⟩⟩⟩
    · exact .inr (.inr ⟨rfl, hp, b, hv, rfl⟩)

end Sys2Proof.Machine
end

