-- ==== Sys2Proof/Laws/Memory.lean ====
section
/-! SUPPORT. What the memory operations do: reading after a write, and the canonical form kept by every operation. -/

namespace Sys2Proof.Machine

/-- A byte is not listed below the bound of the canonical form. -/
theorem Memory.read_below {lo x : Nat} {m : Memory} (h : Memory.wfFrom lo m = true) (hx : x < lo) :
    m.read x = unlistedByte := by
  induction m generalizing lo with
  | nil => rfl
  | cons e m ih =>
    obtain ⟨a, b⟩ := e
    simp only [Memory.wfFrom, Bool.and_eq_true, decide_eq_true_eq] at h
    have ha : a ≠ x := by omega
    simp only [Memory.read, ha, if_false]
    exact ih h.2 (by omega)

/-- The bound of the canonical form may be lowered. -/
theorem Memory.wfFrom_mono {lo lo' : Nat} {m : Memory} (h : Memory.wfFrom lo m = true) (hl : lo' ≤ lo) :
    Memory.wfFrom lo' m = true := by
  cases m with
  | nil => rfl
  | cons e m =>
    obtain ⟨a, b⟩ := e
    simp only [Memory.wfFrom, Bool.and_eq_true, decide_eq_true_eq] at h ⊢
    exact ⟨⟨⟨by omega, h.1.1.2⟩, h.1.2⟩, h.2⟩

theorem Memory.erase_wfFrom {lo : Nat} {m : Memory} (x : Nat) (h : Memory.wfFrom lo m = true) :
    Memory.wfFrom lo (m.erase x) = true := by
  induction m generalizing lo with
  | nil => rfl
  | cons e m ih =>
    obtain ⟨a, b⟩ := e
    simp only [Memory.wfFrom, Bool.and_eq_true, decide_eq_true_eq] at h
    unfold Memory.erase
    split
    · exact Memory.wfFrom_mono h.2 (by omega)
    · simp only [Memory.wfFrom, Bool.and_eq_true, decide_eq_true_eq]
      exact ⟨h.1, ih h.2⟩

theorem Memory.insert_wfFrom {lo x : Nat} {v : Byte} {m : Memory} (h : Memory.wfFrom lo m = true) (hl : lo ≤ x)
    (hx : x < 2 ^ 32) (hv : v ≠ unlistedByte) : Memory.wfFrom lo (m.insert x v) = true := by
  induction m generalizing lo with
  | nil => simp [Memory.insert, Memory.wfFrom, hl, hv]; omega
  | cons e m ih =>
    obtain ⟨a, b⟩ := e
    simp only [Memory.wfFrom, Bool.and_eq_true, decide_eq_true_eq] at h
    unfold Memory.insert
    split
    · simp only [Memory.wfFrom, Bool.and_eq_true, decide_eq_true_eq]
      exact ⟨⟨⟨hl, hx⟩, hv⟩, ⟨⟨by omega, h.1.1.2⟩, h.1.2⟩, h.2⟩
    · split
      · simp only [Memory.wfFrom, Bool.and_eq_true, decide_eq_true_eq]
        exact ⟨⟨⟨hl, hx⟩, hv⟩, Memory.wfFrom_mono h.2 (by omega)⟩
      · simp only [Memory.wfFrom, Bool.and_eq_true, decide_eq_true_eq]
        exact ⟨h.1, ih h.2 (by omega)⟩

/-- Every byte write keeps the canonical form. -/
theorem Memory.write_wf {m : Memory} {x : Nat} (v : Byte) (h : m.wf = true) (hx : x < 2 ^ 32) :
    (m.write x v).wf = true := by
  unfold Memory.write Memory.wf at *
  split
  · exact Memory.erase_wfFrom x h
  · exact Memory.insert_wfFrom h (Nat.zero_le x) hx ‹_›

/-- Every address of an operand is a 32-bit linear address. -/
theorem operandAddrs_lt {lin : Dword} {n a : Nat} (h : a ∈ operandAddrs lin n) : a < 2 ^ 32 := by
  simp only [operandAddrs, List.mem_map] at h
  obtain ⟨k, -, rfl⟩ := h
  exact BitVec.isLt _

/-- A write of several bytes keeps the canonical form. -/
theorem Memory.writeLE_wf {w : Nat} {m : Memory} {as : List Nat} (v : BitVec w) (h : m.wf = true)
    (ha : ∀ a ∈ as, a < 2 ^ 32) : (m.writeLE as v).wf = true := by
  induction as generalizing m v with
  | nil => exact h
  | cons a as ih =>
    exact ih _ (Memory.write_wf _ h (ha a List.mem_cons_self)) fun b hb => ha b (List.mem_cons_of_mem _ hb)

/-- `MemWrite` keeps the canonical form. -/
theorem memWrite_wf {w : Nat} (s : State) (lin : Dword) (n : Nat) (v : BitVec w) (h : s.mem.wf = true) :
    (s.memWrite lin n v).mem.wf = true :=
  Memory.writeLE_wf v h fun _ => operandAddrs_lt

/-- Reset's memory is in canonical form. -/
theorem reset_mem_wf : State.reset.mem.wf = true := rfl

theorem Memory.read_erase {lo : Nat} {m : Memory} (x y : Nat) (h : Memory.wfFrom lo m = true) :
    (m.erase x).read y = if y = x then unlistedByte else m.read y := by
  induction m generalizing lo with
  | nil => simp [Memory.erase, Memory.read]
  | cons e m ih =>
    obtain ⟨a, b⟩ := e
    simp only [Memory.wfFrom, Bool.and_eq_true, decide_eq_true_eq] at h
    by_cases hax : a = x
    · subst hax
      by_cases hy : y = a
      · subst hy; simpa [Memory.erase] using Memory.read_below h.2 (Nat.lt_succ_self y)
      · simp [Memory.erase, Memory.read, hy, Ne.symm hy]
    · by_cases hay : a = y
      · subst hay; simp [Memory.erase, Memory.read, hax]
      · simp [Memory.erase, Memory.read, hax, hay, ih h.2]

theorem Memory.read_insert {m : Memory} (x y : Nat) (v : Byte) :
    (m.insert x v).read y = if y = x then v else m.read y := by
  induction m with
  | nil => simp only [Memory.insert, Memory.read, eq_comm]
  | cons e m ih =>
    obtain ⟨a, b⟩ := e
    unfold Memory.insert
    split
    · simp only [Memory.read, eq_comm]
    · split
      · subst_vars
        by_cases hy : y = a
        · simp [Memory.read, hy]
        · simp [Memory.read, hy, Ne.symm hy]
      · rename_i hax
        by_cases hay : a = y
        · subst hay; simp [Memory.read, hax]
        · simp [Memory.read, hay, ih]

/-- A byte reads as what was written there last, and every other byte as before. -/
theorem Memory.read_write {m : Memory} (x y : Nat) (v : Byte) (h : m.wf = true) :
    (m.write x v).read y = if y = x then v else m.read y := by
  unfold Memory.write
  split
  · subst_vars; exact Memory.read_erase x y h
  · exact Memory.read_insert x y v

end Sys2Proof.Machine
end

