-- ==== Sys2Proof/Laws/Pcmpgt.lean ====
section
/-! SUPPORT. What the packed compare computes: bits and lanes of the packed vector. -/

namespace Sys2Proof.Machine

theorem getLsbD_lane {S : Nat} (N k j : Nat) (v : BitVec S) (hj : j < N) :
    (lane N k v).getLsbD j = v.getLsbD (N * k + j) := by
  simp [lane, hj]

theorem getLsbD_gtLane {N : Nat} (a b : BitVec N) (j : Nat) (hj : j < N) :
    (gtLane a b).getLsbD j = decide (b.toInt < a.toInt) := by
  unfold gtLane
  split <;> simp [*]

/-- A bit of the packed vector is the bit of its lane, and zero above the lanes. -/
theorem getLsbD_packLanes {N : Nat} (S : Nat) (f : Nat → BitVec N) (L i : Nat) (hN : 0 < N) (hS : N * L ≤ S) :
    (packLanes S f L).getLsbD i = (decide (i < N * L) && (f (i / N)).getLsbD (i % N)) := by
  induction L with
  | zero => simp [packLanes]
  | succ L ih =>
    have hmul : N * (L + 1) = N * L + N := Nat.mul_succ N L
    simp only [packLanes, BitVec.getLsbD_or, BitVec.getLsbD_shiftLeft, BitVec.getLsbD_setWidth]
    rw [ih (by omega)]
    by_cases h1 : i < N * L
    · simp [h1, show i < N * (L + 1) by omega]
    · by_cases h2 : i < N * (L + 1)
      · have hd : i / N = L := by
          apply Nat.div_eq_of_lt_le
          · rw [Nat.mul_comm]; omega
          · rw [Nat.mul_comm, hmul]; omega
        have hm : i % N = i - N * L := by
          have := Nat.div_add_mod i N
          rw [hd] at this; omega
        simp [h1, h2, hd, hm, show i < S by omega, show i - N * L < S by omega]
      · have : N ≤ i - N * L := by omega
        simp [h1, h2, BitVec.getLsbD_of_ge (f L) (i - N * L) this]

/-- Lane `k` of the packed vector is the vector it was packed from. -/
theorem lane_packLanes {N : Nat} (S : Nat) (f : Nat → BitVec N) (L k : Nat) (hN : 0 < N) (hS : N * L ≤ S)
    (hk : k < L) : lane N k (packLanes S f L) = f k := by
  have hle : N * (k + 1) ≤ N * L := Nat.mul_le_mul_left N hk
  have hsucc : N * (k + 1) = N * k + N := Nat.mul_succ N k
  apply BitVec.eq_of_getLsbD_eq
  intro j hj
  rw [getLsbD_lane N k j _ hj, getLsbD_packLanes S f L _ hN hS, Nat.mul_add_div hN, Nat.mul_add_mod,
    Nat.div_eq_of_lt hj, Nat.mod_eq_of_lt hj]
  simp; omega

/-- Two vectors with the same lanes are equal. -/
theorem eq_of_lanes {S : Nat} (N : Nat) {a b : BitVec S} (hN : 0 < N) (hS : N * (S / N) = S)
    (h : ∀ k < S / N, lane N k a = lane N k b) : a = b := by
  apply BitVec.eq_of_getLsbD_eq
  intro i hi
  have hk : i / N < S / N := Nat.div_lt_of_lt_mul (by rw [hS]; exact hi)
  have hj := Nat.mod_lt i hN
  have := congrArg (fun v => v.getLsbD (i % N)) (h _ hk)
  simpa [getLsbD_lane N _ _ _ hj, Nat.div_add_mod] using this

/-- Lane `k` of the packed compare is the lane function of the two lanes. -/
theorem lane_pcmpgt {S : Nat} (N k : Nat) (a b : BitVec S) (hN : 0 < N) (hk : k < S / N) :
    lane N k (pcmpgt N a b) = gtLane (lane N k a) (lane N k b) :=
  lane_packLanes S _ (S / N) k hN (Nat.mul_div_le S N) hk

end Sys2Proof.Machine
end

