-- ==== Sys2Proof/Laws/PerInstr.lean ====
section
/-! SUPPORT. Statements for all instructions, one lemma per constructor of `Instr`. -/

namespace Sys2Proof.Laws

/-- After an instruction's leading bytes stand `0F` and the second opcode byte of its element width, and the next byte
holds its destination register in bits 5:3 (30_encoding.md R50, R51, R53). -/
def Opcode.Statement (i : Instr) : Prop :=
  (encode i)[i.lead.length]? = some 0x0F#8 ∧ (encode i)[i.lead.length + 1]? = some (opcodeByte i.width) ∧
    ((encode i)[i.lead.length + 2]?).map fieldMid = some i.dst

/-- The shape of every encoding, in terms of its parts. -/
theorem opcode_of_parts (i : Instr) : Opcode.Statement i := by
  have hlen : (i.lead.map leadByte).length = i.lead.length := List.length_map _
  have hmid : ((encodeSrc i.dst i.src)[0]?).map fieldMid = some i.dst := by
    unfold encodeSrc
    split <;> simp
  refine ⟨?_, ?_, ?_⟩ <;> unfold encode <;> rw [List.getElem?_append_right (by omega), hlen]
  · simp
  · simp
  · rw [show i.lead.length + 2 - i.lead.length = 0 + 1 + 1 by omega, List.getElem?_cons_succ, List.getElem?_cons_succ, hmid]

theorem Opcode.pcmpgtbMm (lead : List Lead) (dst : RegNum) (src : Src) : Opcode.Statement (.pcmpgtbMm lead dst src) :=
  opcode_of_parts _

theorem Opcode.pcmpgtbXmm (lead : List Lead) (dst : RegNum) (src : Src) : Opcode.Statement (.pcmpgtbXmm lead dst src) :=
  opcode_of_parts _

theorem Opcode.pcmpgtwMm (lead : List Lead) (dst : RegNum) (src : Src) : Opcode.Statement (.pcmpgtwMm lead dst src) :=
  opcode_of_parts _

theorem Opcode.pcmpgtwXmm (lead : List Lead) (dst : RegNum) (src : Src) : Opcode.Statement (.pcmpgtwXmm lead dst src) :=
  opcode_of_parts _

theorem Opcode.pcmpgtdMm (lead : List Lead) (dst : RegNum) (src : Src) : Opcode.Statement (.pcmpgtdMm lead dst src) :=
  opcode_of_parts _

theorem Opcode.pcmpgtdXmm (lead : List Lead) (dst : RegNum) (src : Src) : Opcode.Statement (.pcmpgtdXmm lead dst src) :=
  opcode_of_parts _

end Sys2Proof.Laws
end

