-- ==== Sys2Proof/Laws/Safety.lean ====
section
/-! SUPPORT. The claims' terms against the operations: which checks pass when an operand is in range, aligned and
readable, what the checked read then gives, and the frames of completing and of raising. -/

namespace Sys2Proof.Machine

/-- The address of byte `k` as the operations compute it. -/
theorem byteAddr_eq (lin : Dword) (k : Nat) : (lin + BitVec.ofNat 32 k).toNat = byteAddr lin k := by
  simp [byteAddr, BitVec.toNat_add]

theorem mem_operandAddrs {lin : Dword} {n a : Nat} : a ∈ operandAddrs lin n ↔ ∃ k < n, a = byteAddr lin k := by
  simp only [operandAddrs, List.mem_map, List.mem_range, byteAddr_eq, eq_comm]

theorem regionHas_iff {r : Region} {a : Nat} : regionHas r a = true ↔ r.first ≤ a ∧ a ≤ r.last := by
  simp [regionHas]

/-- Some address of an operand lies in a region exactly when the operand touches it. -/
theorem touches_iff {lin : Dword} {n : Nat} {r : Region} :
    Touches lin n r ↔ ∃ a ∈ operandAddrs lin n, regionHas r a = true := by
  constructor
  · rintro ⟨k, hk, h⟩
    exact ⟨_, mem_operandAddrs.mpr ⟨k, hk, rfl⟩, regionHas_iff.mpr h⟩
  · rintro ⟨a, ha, h⟩
    obtain ⟨k, hk, rfl⟩ := mem_operandAddrs.mp ha
    exact ⟨k, hk, regionHas_iff.mp h⟩

theorem bound_iff {e n limit : Nat} (hn : 0 < n) : (∀ k < n, e + k ≤ limit) ↔ ¬ limit < e + n - 1 := by
  constructor
  · intro h; have := h (n - 1) (by omega); omega
  · intro h k hk; omega

/-- Step 1 passes exactly when the operand is in range (20_memory.md R37, R39). -/
theorem rangeFault_none_iff {s : State} {seg : Seg} {ea : Dword} {n : Nat} (hn : 0 < n) :
    rangeFault s seg ea n = none ↔ InRange s seg ea n := by
  unfold rangeFault InRange
  cases hm : s.cfg.mode <;> simp [bound_iff hn]

/-- Step 1's fault when the operand is not in range. -/
theorem rangeFault_of_out {s : State} {seg : Seg} {ea : Dword} {n : Nat} (hn : 0 < n) (h : ¬ InRange s seg ea n) :
    rangeFault s seg ea n = some (if s.cfg.mode = .protectedMode ∧ seg = .ss then .ss else .gp) := by
  unfold InRange at h
  unfold rangeFault
  cases hm : s.cfg.mode <;> simp only [hm, reduceCtorEq, if_true, if_false, bound_iff hn, not_not] at h <;> simp [h]

/-- Step 2 passes exactly when the operand is aligned (20_memory.md R38). -/
theorem alignFault_none_iff {s : State} {seg : Seg} {ea : Dword} {n : Nat} :
    alignFault s seg ea n = none ↔ Aligned s seg ea n := by
  unfold alignFault Aligned linear
  split
  · rename_i h
    exact ⟨fun h' => (nomatch h'), fun h' => absurd (h' h.1) h.2⟩
  · rename_i h; simpa using h

/-- Step 2's fault when the operand is not aligned. -/
theorem alignFault_of_not {s : State} {seg : Seg} {ea : Dword} {n : Nat} (h : ¬ Aligned s seg ea n) :
    alignFault s seg ea n = some .gp := by
  cases hf : alignFault s seg ea n with
  | none => exact absurd (alignFault_none_iff.mp hf) h
  | some e => rw [(alignFault_some hf).1]

/-- A row of the paging verdict applies to a read as the claims say it. -/
theorem pageApplies_iff {lin : Dword} {n : Nat} {p : PageFault} : pageApplies lin n p = true ↔ FaultsOn lin n p := by
  cases p with
  | page bytes code => simp only [pageApplies, FaultsOn, List.any_eq_true, touches_iff]
  | reads starts m code => simp only [pageApplies, FaultsOn, Bool.and_eq_true, decide_eq_true_eq, regionHas_iff]

theorem pageHits_nil_iff {c : Config} {lin : Dword} {n : Nat} :
    pageHits c lin n = [] ↔ ∀ p ∈ c.pageFaults, ¬ FaultsOn lin n p := by
  simp only [pageHits, List.filter_eq_nil_iff, pageApplies_iff]

theorem mem_pageHits {c : Config} {lin : Dword} {n : Nat} {p : PageFault} :
    p ∈ pageHits c lin n ↔ p ∈ c.pageFaults ∧ FaultsOn lin n p := by
  simp only [pageHits, List.mem_filter, pageApplies_iff]

/-- Step 3 passes exactly when no page fault occurs (20_memory.md R40). -/
theorem pageFault_none_iff {s : State} {seg : Seg} {ea : Dword} {n : Nat} :
    pageFault s (linear s seg ea) n = none ↔ NoPageFault s seg ea n := by
  unfold pageFault NoPageFault
  cases hm : s.cfg.mode <;> simp [translate_none, pageHits_nil_iff, linear]

/-- What reading listed addresses gives, least significant byte first (20_memory.md R33). -/
theorem readLE_eq_some {s : State} {w : Nat} {as : List Nat} {v : BitVec w} (hw : w = 8 * as.length) :
    s.readLE w as = some v ↔ ∀ k (hk : k < as.length), s.byteAt as[k] = some (v.extractLsb' (8 * k) 8) := by
  -- the read is generalised to any width at least that of the bytes, with zeros above them
  suffices H : ∀ (as : List Nat) (w : Nat) (v : BitVec w), 8 * as.length ≤ w →
      (s.readLE w as = some v ↔ (∀ k (hk : k < as.length), s.byteAt as[k] = some (v.extractLsb' (8 * k) 8)) ∧
        ∀ j, 8 * as.length ≤ j → v.getLsbD j = false) by
    rw [H as w v (by omega)]
    exact ⟨fun h => h.1, fun h => ⟨h, fun j hj => BitVec.getLsbD_of_ge v j (by omega)⟩⟩
  intro as
  induction as with
  | nil =>
    intro w v _
    simp only [State.readLE, Option.some.injEq]
    constructor
    · rintro rfl; exact ⟨fun k hk => absurd hk (by simp), fun j _ => by simp⟩
    · rintro ⟨-, h⟩
      apply BitVec.eq_of_getLsbD_eq
      intro j _
      simpa using (h j (by simp)).symm
  | cons a as ih =>
    intro w v hw
    simp only [List.length_cons] at hw
    have hrec := ih w (v >>> 8) (by omega)
    have hsplit : ∀ (b : Byte) (u : BitVec w), (∀ j, 8 * as.length ≤ j → u.getLsbD j = false) →
        (u <<< 8 ||| b.setWidth w = v ↔ b = v.extractLsb' 0 8 ∧ u = v >>> 8) := by
      intro b u hu
      constructor
      · intro h
        constructor
        · apply BitVec.eq_of_getLsbD_eq
          intro j hj
          rw [← h]
          simp [hj, show j < w by omega]
        · apply BitVec.eq_of_getLsbD_eq
          intro j hj
          rw [← h]
          by_cases hj8 : 8 + j < w
          · simp [hj8, BitVec.getLsbD_eq_getElem hj]
          · simp [BitVec.getLsbD_ushiftRight, hj8, hu j (by omega)]
      · rintro ⟨rfl, rfl⟩
        apply BitVec.eq_of_getLsbD_eq
        intro j hj
        by_cases hj8 : j < 8
        · simp [hj, hj8]
        · simp [hj, hj8, show 8 + (j - 8) = j by omega]
    constructor
    · intro h
      simp only [State.readLE] at h
      split at h
      · rename_i b u hb hu
        have hu' := (ih w u (by omega)).mp hu
        obtain ⟨rfl, rfl⟩ := (hsplit b u hu'.2).mp (Option.some.inj h)
        refine ⟨?_, ?_⟩
        · intro k hk
          cases k with
          | zero => simpa using hb
          | succ k =>
            have := hu'.1 k (by simpa using hk)
            simp only [List.getElem_cons_succ]
            rw [this]
            congr 1
            apply BitVec.eq_of_getLsbD_eq
            intro j hj
            simp [hj, BitVec.getLsbD_ushiftRight]
            congr 1; omega
        · intro j hj
          simp only [List.length_cons] at hj
          have := hu'.2 (j - 8) (by omega)
          simpa [BitVec.getLsbD_ushiftRight, show 8 + (j - 8) = j by omega] using this
      · cases h
    · rintro ⟨hb, hz⟩
      have h0 := hb 0 (by simp)
      have hu : s.readLE w as = some (v >>> 8) := by
        rw [hrec]
        refine ⟨?_, ?_⟩
        · intro k hk
          have := hb (k + 1) (by simpa using hk)
          simp only [List.getElem_cons_succ] at this
          rw [this]
          congr 1
          apply BitVec.eq_of_getLsbD_eq
          intro j hj
          simp [hj, BitVec.getLsbD_ushiftRight]
          congr 1; omega
        · intro j hj
          simpa [BitVec.getLsbD_ushiftRight] using hz (8 + j) (by simp only [List.length_cons]; omega)
      simp only [List.getElem_cons_zero, Nat.mul_zero] at h0
      simp only [State.readLE, h0, hu, Option.some.injEq]
      exact (hsplit _ _ ((ih w _ (by omega)).mp hu).2).mpr ⟨rfl, rfl⟩

/-- `MemRead` gives exactly the vector whose bytes stand at the operand's addresses (20_memory.md R41). -/
theorem memRead_eq_some {s : State} {lin : Dword} {n w : Nat} {v : BitVec w} (hw : w = 8 * n) :
    memRead w s lin n = some v ↔ BytesAre s lin n v := by
  unfold memRead BytesAre
  rw [readLE_eq_some (by simp [operandAddrs, hw])]
  constructor
  · intro h k hk
    have := h k (by simpa [operandAddrs] using hk)
    simpa [operandAddrs, byteAddr] using this
  · intro h k hk
    have hk' : k < n := by simpa [operandAddrs] using hk
    simpa [operandAddrs, byteAddr] using h k hk'

/-- The checked read of an operand that can be read gives its value (20_memory.md R36). -/
theorem operandRead_of_readable {w n : Nat} {s : State} {seg : Seg} {ea : Dword} {v : BitVec w} (hn : 0 < n)
    (hw : w = 8 * n) (h : Readable s seg ea n v) : operandRead w s seg ea n = .value v := by
  rw [operandRead_of_checks h.admitted.1 ((rangeFault_none_iff hn).mpr h.inRange) (alignFault_none_iff.mpr h.aligned)
    (pageFault_none_iff.mpr h.noPageFault)]
  rcases operandValue_cases w s (linear s seg ea) n with ⟨⟨a, ha, r, hr, hra⟩, -⟩ | ⟨-, ⟨u, hu, he⟩ | ⟨hu, -⟩⟩
  · exact absurd (touches_iff.mpr ⟨a, ha, hra⟩) (h.admitted.2 r hr)
  · rw [he, Option.some.inj (hu.symm.trans ((memRead_eq_some hw).mpr h.bytes))]
  · exact absurd (hu.symm.trans ((memRead_eq_some hw).mpr h.bytes)) (by simp)

/-- A source operand that has a value is read as that value (40_pcmpgt.md R71 step 2). -/
theorem source_of_is {w n : Nat} {s : State} {file : RegNum → BitVec w} {lead : List Lead} {src : Src} {v : BitVec w}
    (hn : 0 < n) (hw : w = 8 * n) (h : SourceIs n file s lead src v) : source w n s file lead src = .value v := by
  unfold SourceIs at h
  split at h
  · rename_i seg ea hm
    rw [source_of_memOperand hm, operandRead_of_readable hn hw h]
  · obtain ⟨r, rfl, rfl⟩ := h
    rfl

/-- The checks before the operand pass exactly in a state that is ready (70_reset_and_hazards.md R122). -/
theorem preChecks_none_iff {size : OpSize} {s : State} : preChecks size s = none ↔ Ready size s := by
  unfold Ready MfReported
  rcases preChecks_cases size s with ⟨h1, h⟩ | ⟨h1, rfl, h2, h⟩ | ⟨h1, h2, h3, h⟩ | ⟨h1, h3, rfl, h4, h5, h⟩ |
    ⟨h1, h3, h2, h4, h⟩ <;> rw [h]
  · simp [h1]
  · simp [h2]
  · simp [h3]
  · simp [h4, h5]
  · cases size
    · simpa [h1, h3] using h4
    · simpa [h1, h3] using h2

/-- What completing a 64-bit form keeps (10_state.md R23). -/
theorem complete64_frame (d : RegNum) (r : MmWord) (len : Nat) (s : State) : Frame64 d s (complete64 d r len s) where
  rest := ⟨rfl, rfl, rfl, rfl, rfl, rfl, rfl, rfl, rfl, fun _ => rfl, rfl, rfl⟩
  otherMm := fun j hj => complete64_getMm_other d j r len s hj
  xmm := rfl
  fault := rfl

/-- What completing a 128-bit form keeps (10_state.md R23). -/
theorem complete128_frame (d : RegNum) (r : XmmWord) (len : Nat) (s : State) :
    Frame128 d s (complete128 d r len s) where
  rest := ⟨rfl, rfl, rfl, rfl, rfl, rfl, rfl, rfl, rfl, fun _ => rfl, rfl, rfl⟩
  otherXmm := fun j hj => complete128_getXmm_other d j r len s hj
  mm := rfl
  x87 := rfl
  fault := rfl

/-- What raising an exception keeps and records (60_exceptions.md R108, R109). -/
theorem raise_took (e : Exn) (s : State) : Took e s (raise e s) where
  rest := ⟨rfl, rfl, rfl, rfl, rfl, rfl, rfl, rfl, rfl, fun _ => rfl, rfl, rfl⟩
  mm := rfl
  xmm := rfl
  x87 := rfl
  pc := rfl
  fault := rfl

/-- An exception the checks before the operand report is raised (60_exceptions.md R107). -/
theorem raises_of_preChecks {i : Instr} {s : State} {e : Exn} (h : preChecks i.size s = some e) : Raises i s e := by
  refine ⟨raise e s, ?_, raise_took e s⟩
  cases hs : i.size with
  | s64 => rw [hs] at h; rw [exec_of_s64 hs, run64, h]; rfl
  | s128 => rw [hs] at h; rw [exec_of_s128 hs, run128, h]; rfl

/-- The meaning of a form with a memory source when the checks before the operand pass, in terms of the checked read:
the exception it raises (40_pcmpgt.md R71). -/
theorem raises_of_operand {i : Instr} {s : State} {seg : Seg} {ea : Dword} {e : Exn} (hr : Ready i.size s)
    (hm : memOperand s i.lead i.src = some (seg, ea))
    (h : ∀ w, operandRead w s seg ea (operandBytes i.size) = .raises e) : Raises i s e := by
  refine ⟨raise e s, ?_, raise_took e s⟩
  cases hs : i.size with
  | s64 =>
    rw [hs] at hr h
    rw [exec_of_s64 hs, run64, preChecks_none_iff.mpr hr, source64, source_of_memOperand hm, show (8 : Nat) = operandBytes .s64 from rfl, h]
    rfl
  | s128 =>
    rw [hs] at hr h
    rw [exec_of_s128 hs, run128, preChecks_none_iff.mpr hr, source128, source_of_memOperand hm, show (16 : Nat) = operandBytes .s128 from rfl, h]
    rfl

end Sys2Proof.Machine
end

