-- ==== Sys2Proof/Machine/Assembler.lean ====
section
/-! DEFINITION. Assembler syntax: mnemonic, a space, the destination, a comma, the source (30_encoding.md R62). The
spelling of registers and memory operands is general knowledge by the spec's own mark (GK4, GK23). No step reads it. -/

namespace Sys2Proof.Machine

/-- The mnemonic of the opcode table, by element width (30_encoding.md R50, R51). -/
def mnemonicOf : Width → String
  | .b => "PCMPGTB"
  | .w => "PCMPGTW"
  | .d => "PCMPGTD"

/-- The name of a register of a form's file: `mm0` to `mm7`, `xmm0` to `xmm7`. -/
def fileName (size : OpSize) (r : RegNum) : String :=
  match size with
  | .s64 => "mm" ++ toString r.toNat
  | .s128 => "xmm" ++ toString r.toNat

/-- The name of a general register by number (30_encoding.md R54). -/
def name32 (r : RegNum) : String := ["EAX", "ECX", "EDX", "EBX", "ESP", "EBP", "ESI", "EDI"].getD r.toNat ""

/-- The register part of a 16-bit form by `rm` (30_encoding.md R56). -/
def name16 (rm : RegNum) : String :=
  ["BX+SI", "BX+DI", "BP+SI", "BP+DI", "SI", "DI", "BP", "BX"].getD rm.toNat ""

/-- The last `digits` hexadecimal digits of a number. -/
def hexDigits (n : Nat) : Nat → List Char
  | 0 => []
  | digits + 1 => hexDigits (n / 16) digits ++ ["0123456789ABCDEF".toList.getD (n % 16) '0']

/-- A number in hexadecimal with a prefix. -/
def hexText (n digits : Nat) : String := "0x" ++ String.ofList (hexDigits n digits)

/-- A sign-extended one-byte displacement after a register. -/
def disp8Text (d : Byte) : String :=
  if d.toInt < 0 then "-" ++ toString d.toInt.natAbs else "+" ++ toString d.toInt.natAbs

/-- The displacement of a 32-bit form after a register. -/
def disp32Text : Disp32 → String
  | .none => ""
  | .d8 d => disp8Text d
  | .d32 d => "+" ++ hexText d.toNat 8

/-- The displacement of a 16-bit form after a register. -/
def disp16Text : Disp16 → String
  | .none => ""
  | .d8 d => disp8Text d
  | .d16 d => "+" ++ hexText d.toNat 4

/-- The scaled index of a SIB byte, empty when `index = 100`. -/
def indexText (scale : BitVec 2) (index : RegNum) : String :=
  if index = 4 then "" else name32 index ++ (if scale = 0 then "" else "*" ++ toString (2 ^ scale.toNat))

/-- Two parts of a sum. -/
def plusText (a b : String) : String := if b = "" then a else if a = "" then b else a ++ "+" ++ b

/-- The inside of the brackets of a 32-bit form. -/
def addr32Text : Addr32 → String
  | .based rm disp => name32 rm ++ disp32Text disp
  | .direct d => hexText d.toNat 8
  | .sib scale index base disp => plusText (name32 base) (indexText scale index) ++ disp32Text disp
  | .sibNoBase scale index d => plusText (indexText scale index) (hexText d.toNat 8)

/-- The inside of the brackets of a 16-bit form. -/
def addr16Text : Addr16 → String
  | .based rm disp => name16 rm ++ disp16Text disp
  | .direct d => hexText d.toNat 4

/-- A segment's name. -/
def segText : Seg → String
  | .cs => "CS"
  | .ds => "DS"
  | .es => "ES"
  | .fs => "FS"
  | .gs => "GS"
  | .ss => "SS"

/-- The override before a memory operand. -/
def overrideText (lead : List Lead) : String :=
  match overrideOf lead with
  | some seg => segText seg ++ ":"
  | none => ""

/-- The source operand. -/
def srcText (size : OpSize) (lead : List Lead) : Src → String
  | .reg r => fileName size r
  | .mem32 a => overrideText lead ++ "[" ++ addr32Text a ++ "]"
  | .mem16 a => overrideText lead ++ "[" ++ addr16Text a ++ "]"

/-- An instruction as the assembler writes it (30_encoding.md R62). -/
def asmText (i : Instr) : String :=
  mnemonicOf i.width ++ " " ++ fileName i.size i.dst ++ ", " ++ srcText i.size i.lead i.src

end Sys2Proof.Machine
end

