-- ==== Sys2Proof/Machine/Timing.lean ====
section
/-! DEFINITION. The source's timing table, transcribed as data (70_reset_and_hazards.md R126). No step reads it: timing is
not modelled (R127). -/

namespace Sys2Proof.Machine

/-- Latency and throughput, in the units the table leaves unstated. -/
structure Figures where
  latency : Nat
  throughput : Nat
deriving DecidableEq, Repr

/-- The figures of a register-to-register form; none where the table prints `-` or has no column. -/
def registerFigures (sig : CpuSignature) (size : OpSize) : Option Figures :=
  match sig, size with
  | .sig0F3n, .s64 => some ⟨2, 1⟩
  | .sig0F2n, .s64 => some ⟨2, 1⟩
  | .sig069n, .s64 => none
  | .sig0F3n, .s128 => some ⟨2, 2⟩
  | .sig0F2n, .s128 => some ⟨2, 2⟩
  | .sig069n, .s128 => some ⟨1, 1⟩
  | .other, _ => none

/-- The figures of an instruction: the table gives none for a memory source. -/
def figures (sig : CpuSignature) (i : Instr) : Option Figures :=
  match i.src with
  | .reg _ => registerFigures sig i.size
  | .mem32 _ => none
  | .mem16 _ => none

/-- The execution unit, stated for signature 0F2n and register-to-register forms only. -/
def executionUnit (sig : CpuSignature) (i : Instr) : Option String :=
  match sig, i.src with
  | .sig0F2n, .reg _ => some "MMX_ALU"
  | _, _ => none

end Sys2Proof.Machine
end

