-- ==== Sys2Proof/Tests/Slice0.lean ====
section
/-! SUPPORT. The model's own tests. Expected values are those of spec/95_test_vectors.md (V and P numbers) and of the worked
encodings of 30_encoding.md R65; the witnesses at the end show, for each statement of Certificates/Slice0 with hypotheses,
a state and operands that meet them. -/

namespace Sys2Proof.Tests

open Sys2Proof.Machine

/-! WellFormed refuses one ill-formed term for each of its checks. -/

theorem test_wf_accepts : WellFormed Config.reset (.pcmpgtbXmm [.segment .fs, .opSize] 1 (.mem32 (.sib 2 6 3 (.d8 0x10)))) := by
  decide

theorem test_wf_two_66 : ¬ WellFormed Config.reset (.pcmpgtbXmm [.opSize, .opSize] 0 (.reg 1)) := by decide
theorem test_wf_two_67 : ¬ WellFormed Config.reset (.pcmpgtbMm [.addrSize, .addrSize] 0 (.reg 1)) := by decide
theorem test_wf_two_overrides : ¬ WellFormed Config.reset (.pcmpgtbMm [.segment .cs, .segment .ds] 0 (.reg 1)) := by decide
theorem test_wf_xmm_without_66 : ¬ WellFormed Config.reset (.pcmpgtwXmm [] 0 (.reg 1)) := by decide
theorem test_wf_mm_with_66 : ¬ WellFormed Config.reset (.pcmpgtwMm [.opSize] 0 (.reg 1)) := by decide
theorem test_wf_xmm_without_sse2 : ¬ WellFormed { Config.reset with sse2 := false } (.pcmpgtdXmm [.opSize] 0 (.reg 1)) := by
  decide
theorem test_wf_rm4_plain : ¬ WellFormed Config.reset (.pcmpgtdMm [] 0 (.mem32 (.based 4 .none))) := by decide
theorem test_wf_rm5_plain : ¬ WellFormed Config.reset (.pcmpgtdMm [] 0 (.mem32 (.based 5 .none))) := by decide
theorem test_wf_rm4_disp8 : ¬ WellFormed Config.reset (.pcmpgtdMm [] 0 (.mem32 (.based 4 (.d8 0)))) := by decide
theorem test_wf_rm4_disp32 : ¬ WellFormed Config.reset (.pcmpgtdMm [] 0 (.mem32 (.based 4 (.d32 0)))) := by decide
theorem test_wf_sib_base5_plain : ¬ WellFormed Config.reset (.pcmpgtdMm [] 0 (.mem32 (.sib 0 0 5 .none))) := by decide
theorem test_wf_16_rm6_plain : ¬ WellFormed Config.reset (.pcmpgtdMm [.addrSize] 0 (.mem16 (.based 6 .none))) := by decide
theorem test_wf_16_form_at_32 : ¬ WellFormed Config.reset (.pcmpgtdMm [] 0 (.mem16 (.based 0 .none))) := by decide
theorem test_wf_32_form_at_16 : ¬ WellFormed Config.reset (.pcmpgtdMm [.addrSize] 0 (.mem32 (.based 0 .none))) := by decide

/-! Decoding: the words of R65, ModRM and SIB bytes written out bit by bit, then V80 to V86. -/

/-- The launch parameters with 16-bit addressing. -/
def c16 : Config := { Config.reset with addrSize := .a16 }

theorem test_decode_pcmpgtb_mm : decode Config.reset [0x0F, 0x64, 0b11000001] = .ok (.pcmpgtbMm [] 0 (.reg 1), []) := by decide
theorem test_decode_pcmpgtw_mm : decode Config.reset [0x0F, 0x65, 0b11001001] = .ok (.pcmpgtwMm [] 1 (.reg 1), []) := by decide
theorem test_decode_pcmpgtd_mm : decode Config.reset [0x0F, 0x66, 0b11111010] = .ok (.pcmpgtdMm [] 7 (.reg 2), []) := by decide
theorem test_decode_pcmpgtb_xmm :
    decode Config.reset [0x66, 0x0F, 0x64, 0b11000001] = .ok (.pcmpgtbXmm [.opSize] 0 (.reg 1), []) := by decide
theorem test_decode_pcmpgtb_66_without_sse2 :
    decode { Config.reset with sse2 := false } [0x66, 0x0F, 0x64, 0b11000001] = .ok (.pcmpgtbMm [.opSize] 0 (.reg 1), []) := by
  decide
theorem test_decode_pcmpgtw_xmm :
    decode Config.reset [0x66, 0x0F, 0x65, 0b11011101] = .ok (.pcmpgtwXmm [.opSize] 3 (.reg 5), []) := by decide
theorem test_decode_pcmpgtd_xmm :
    decode Config.reset [0x66, 0x0F, 0x66, 0b11000001] = .ok (.pcmpgtdXmm [.opSize] 0 (.reg 1), []) := by decide
theorem test_decode_eax :
    decode Config.reset [0x0F, 0x66, 0b00010000] = .ok (.pcmpgtdMm [] 2 (.mem32 (.based 0 .none)), []) := by decide
theorem test_decode_ebp_disp8 :
    decode Config.reset [0x0F, 0x65, 0b01110101, 0xF8] = .ok (.pcmpgtwMm [] 6 (.mem32 (.based 5 (.d8 0xF8))), []) := by decide
theorem test_decode_sib :
    decode Config.reset [0x66, 0x0F, 0x64, 0b01001100, 0b10110011, 0x10] =
      .ok (.pcmpgtbXmm [.opSize] 1 (.mem32 (.sib 2 6 3 (.d8 0x10))), []) := by decide
theorem test_decode_disp32 :
    decode Config.reset [0x66, 0x0F, 0x66, 0b00111101, 0x00, 0x10, 0x00, 0x00] =
      .ok (.pcmpgtdXmm [.opSize] 7 (.mem32 (.direct 0x00001000)), []) := by decide
theorem test_decode_fs_override :
    decode Config.reset [0x64, 0x0F, 0x64, 0b00000000] = .ok (.pcmpgtbMm [.segment .fs] 0 (.mem32 (.based 0 .none)), []) := by
  decide
theorem test_decode_bx_si : decode c16 [0x0F, 0x64, 0b00000000] = .ok (.pcmpgtbMm [] 0 (.mem16 (.based 0 .none)), []) := by decide
theorem test_decode_67 :
    decode Config.reset [0x67, 0x0F, 0x64, 0b00000000] = .ok (.pcmpgtbMm [.addrSize] 0 (.mem16 (.based 0 .none)), []) := by decide
theorem test_decode_bp_disp8 :
    decode c16 [0x0F, 0x65, 0b01000110, 0x04] = .ok (.pcmpgtwMm [] 0 (.mem16 (.based 6 (.d8 4))), []) := by decide
theorem test_decode_lock : decode Config.reset [0xF0, 0x0F, 0x64, 0x00] = .error .lockByte := by decide
theorem test_decode_v80 : decode Config.reset [0x0F, 0x64, 0b11111111] = .ok (.pcmpgtbMm [] 7 (.reg 7), []) := by decide
theorem test_decode_v82 :
    decode Config.reset [0x0F, 0x65, 0b00000101, 0x78, 0x56, 0x34, 0x12] = .ok (.pcmpgtwMm [] 0 (.mem32 (.direct 0x12345678)), []) := by
  decide
theorem test_decode_v83 :
    decode c16 [0x0F, 0x65, 0b00000110, 0x34, 0x12] = .ok (.pcmpgtwMm [] 0 (.mem16 (.direct 0x1234)), []) := by decide
theorem test_decode_v84 :
    decode Config.reset [0x0F, 0x64, 0b00000100, 0b00100100] = .ok (.pcmpgtbMm [] 0 (.mem32 (.sib 0 4 4 .none)), []) := by decide
theorem test_decode_v85 :
    decode Config.reset [0x0F, 0x64, 0b01000100, 0b00000101, 0x00] = .ok (.pcmpgtbMm [] 0 (.mem32 (.sib 0 0 5 (.d8 0))), []) := by
  decide
theorem test_decode_v86 :
    decode Config.reset [0x0F, 0x64, 0b00000100, 0b00000101, 0x00, 0x30, 0x00, 0x00] =
      .ok (.pcmpgtbMm [] 0 (.mem32 (.sibNoBase 0 0 0x00003000)), []) := by decide

/-- The lengths of 95_test_vectors.md section 2.7. -/
theorem test_lengths :
    lengthOf [] (.reg 1) = 3 ∧ lengthOf [.opSize] (.reg 1) = 4 ∧ lengthOf [] (.mem32 (.based 5 (.d8 0xF8))) = 4 ∧
    lengthOf [.opSize] (.mem32 (.sib 2 6 3 (.d8 0x10))) = 6 ∧ lengthOf [.opSize] (.mem32 (.direct 0x1000)) = 8 ∧
    lengthOf [.segment .fs] (.mem32 (.based 0 .none)) = 4 ∧ lengthOf [.addrSize] (.mem16 (.based 0 .none)) = 4 := by decide

/-- The opcode table's numbering, first byte most significant (30_encoding.md R64). -/
theorem test_table_word_64 : decodeTableWord 32 0x0F64C100 = some (.pcmpgtbMm [] 0 (.reg 1)) := by decide
theorem test_table_word_128 : decodeTableWord 32 0x660F66C1 = some (.pcmpgtdXmm [.opSize] 0 (.reg 1)) := by decide

/-- 30_encoding.md R62's spelling of two of R65's instructions (the expected texts are the second column of that table,
but for the base of the number). -/
theorem test_asm_register : asmText (.pcmpgtwXmm [.opSize] 3 (.reg 5)) = "PCMPGTW xmm3, xmm5" := by decide
theorem test_asm_ebp : asmText (.pcmpgtwMm [] 6 (.mem32 (.based 5 (.d8 0xF8)))) = "PCMPGTW mm6, [EBP-8]" := by decide

/-- Four cells of the timing table (70_reset_and_hazards.md R126). -/
theorem test_figures :
    figures .sig0F3n (.pcmpgtbMm [] 0 (.reg 1)) = some ⟨2, 1⟩ ∧ figures .sig0F2n (.pcmpgtbXmm [.opSize] 0 (.reg 1)) = some ⟨2, 2⟩ ∧
    figures .sig069n (.pcmpgtbMm [] 0 (.reg 1)) = none ∧ figures .sig069n (.pcmpgtbXmm [.opSize] 0 (.reg 1)) = some ⟨1, 1⟩ := by
  decide

/-! The compare: V10 to V19d, then the corner cases of section 2.3. -/

theorem test_lane_8 :
    gtLane (0x00 : BitVec 8) 0x00 = 0x00 ∧ gtLane (0x01 : BitVec 8) 0x00 = 0xFF ∧ gtLane (0x00 : BitVec 8) 0x01 = 0x00 ∧
    gtLane (0xFF : BitVec 8) 0x00 = 0x00 ∧ gtLane (0x00 : BitVec 8) 0xFF = 0xFF ∧ gtLane (0x7F : BitVec 8) 0x80 = 0xFF ∧
    gtLane (0x80 : BitVec 8) 0x7F = 0x00 ∧ gtLane (0x80 : BitVec 8) 0x80 = 0x00 ∧ gtLane (0x7F : BitVec 8) 0x7F = 0x00 ∧
    gtLane (0xFF : BitVec 8) 0x80 = 0xFF ∧ gtLane (0x80 : BitVec 8) 0xFF = 0x00 ∧ gtLane (0x7F : BitVec 8) 0xFF = 0xFF ∧
    gtLane (0xFE : BitVec 8) 0xFF = 0x00 ∧ gtLane (0xFF : BitVec 8) 0xFE = 0xFF := by decide

theorem test_lane_16_32 :
    gtLane (0x8000 : BitVec 16) 0x7FFF = 0x0000 ∧ gtLane (0x7FFF : BitVec 16) 0x8000 = 0xFFFF ∧
    gtLane (0xFFFF : BitVec 16) 0xFFFE = 0xFFFF ∧ gtLane (0x80000000 : BitVec 32) 0x7FFFFFFF = 0x00000000 ∧
    gtLane (0x7FFFFFFF : BitVec 32) 0x80000000 = 0xFFFFFFFF ∧ gtLane (0xFFFFFFFF : BitVec 32) 0xFFFFFFFE = 0xFFFFFFFF := by decide

theorem test_packed_v20 : pcmpgt 8 (0x123456789ABCDEF0 : MmWord) 0x123456789ABCDEF0 = 0 := by decide
theorem test_packed_v21 : pcmpgt 16 (0xFFFFFFFFFFFFFFFFFFFFFFFFFFFFFFFF : XmmWord) 0 = 0 := by decide
theorem test_packed_v22 :
    pcmpgt 16 (0 : XmmWord) 0xFFFFFFFFFFFFFFFFFFFFFFFFFFFFFFFF = 0xFFFFFFFFFFFFFFFFFFFFFFFFFFFFFFFF := by decide
theorem test_packed_v25 : pcmpgt 32 (0x0000000100000000 : MmWord) 0x0000000000000001 = 0xFFFFFFFF00000000 := by decide
theorem test_packed_v26 : pcmpgt 32 (0x0000000000000001 : MmWord) 0x0000000100000000 = 0x00000000FFFFFFFF := by decide
theorem test_packed_v33 : pcmpgt 8 (0x00FF00FF00FF00FF : MmWord) 0xFF00FF00FF00FF00 = 0xFF00FF00FF00FF00 := by decide
theorem test_packed_v34 : pcmpgt 16 (0x00FF00FF00FF00FF : MmWord) 0xFF00FF00FF00FF00 = 0xFFFFFFFFFFFFFFFF := by decide

/-! Small states. -/

/-- A launch with a text at offset 1000H. -/
def start (bytes : List Byte) : State := ({ State.reset with pc := 0x1000 } : State).loadText bytes

/-- Bytes put into memory from an address up. -/
def store (m : Memory) (lin : Nat) : List Byte → Memory
  | [] => m
  | b :: bs => store (m.write lin b) (lin + 1) bs

/-- A general register set. -/
def setGpr (s : State) (r : RegNum) (v : Dword) : State := { s with gpr := s.gpr.set r.toNat v r.isLt }

/-- The destination and `pc` of a completed 64-bit form. -/
def mmAfter (r : RegNum) : Host.Outcome State Fault Refusal → Option (MmWord × Dword)
  | .next t => if t.fault = none then some (t.getMm r, t.pc) else none
  | .fault _ => none
  | .refused _ => none

/-- The destination and `pc` of a completed 128-bit form. -/
def xmmAfter (r : RegNum) : Host.Outcome State Fault Refusal → Option (XmmWord × Dword)
  | .next t => if t.fault = none then some (t.getXmm r, t.pc) else none
  | .fault _ => none
  | .refused _ => none

/-- The exception a step recorded. -/
def raisedBy : Host.Outcome State Fault Refusal → Option Raised
  | .next t => t.fault
  | .fault _ => none
  | .refused _ => none

/-! One step per form: V1 to V6 with `pc`, then a memory source or an exception per form. -/

theorem test_step_v1 : mmAfter 0 (step (((start [0x0F, 0x64, 0xC1]).setMm 0 0x7F8001FF0005FE10).setMm 1 0x807F0100FF04FF10)) =
    some (0xFF000000FFFF0000, 0x1003) := by decide
theorem test_step_v2 : xmmAfter 0 (step (((start [0x66, 0x0F, 0x64, 0xC1]).setXmm 0 0x0F0E0D0C0B0A09080706050403020100).setXmm 1
    0x08080808080808080808080808080808)) = some (0xFFFFFFFFFFFFFF000000000000000000, 0x1004) := by decide
theorem test_step_v3 : mmAfter 2 (step (((start [0x0F, 0x65, 0xD3]).setMm 2 0x7FFF80000001FFFF).setMm 3 0x80007FFF00000000)) =
    some (0xFFFF0000FFFF0000, 0x1003) := by decide
theorem test_step_v4 : xmmAfter 3 (step (((start [0x66, 0x0F, 0x65, 0xDD]).setXmm 3 0x0001FFFF80007FFF000000FFFF001234).setXmm 5
    0x000000007FFF7FFE0000FF0000FF1233)) = some (0xFFFF00000000FFFF0000FFFF0000FFFF, 0x1004) := by decide
theorem test_step_v5 : mmAfter 7 (step (((start [0x0F, 0x66, 0xFA]).setMm 7 0x0000000080000000).setMm 2 0xFFFFFFFF7FFFFFFF)) =
    some (0xFFFFFFFF00000000, 0x1003) := by decide
theorem test_step_v6 : xmmAfter 0 (step (((start [0x66, 0x0F, 0x66, 0xC1]).setXmm 0 0x00000001800000007FFFFFFFFFFFFFFE).setXmm 1
    0x000000018000000180000000FFFFFFFF)) = some (0x0000000000000000FFFFFFFF00000000, 0x1004) := by decide

/-- The state of V40: PCMPGTB mm1, [EAX] with `EAX = 2000H`. -/
def v40 : State :=
  { (setGpr (start [0x0F, 0x64, 0x08]) 0 0x2000).setMm 1 0x807F0100FF04FF10 with
    mem := store [] 0x2000 [0x10, 0xFE, 0x05, 0x00, 0xFF, 0x01, 0x80, 0x7F] }

theorem test_step_v40 : mmAfter 1 (step v40) = some (0x00FF00FF0000FF00, 0x1003) := by decide
theorem test_step_v41 : mmAfter 0 (step { setGpr (start [0x0F, 0x65, 0x00]) 0 0x2003 with
    mem := store [] 0x2003 [0xFF, 0x00, 0x00, 0xFF, 0x01, 0x80, 0xFF, 0x7F] }) = some (0x0000FFFFFFFF0000, 0x1003) := by decide

/-- The state of V42: PCMPGTD xmm0, [00002000H]. -/
def v42 : State :=
  { start [0x66, 0x0F, 0x66, 0x05, 0x00, 0x20, 0x00, 0x00] with
    mem := store [] 0x2000 [0x00, 0x00, 0x00, 0x80, 0xFF, 0xFF, 0xFF, 0x7F, 0x01, 0x00, 0x00, 0x00, 0xFF, 0xFF, 0xFF, 0xFF] }

theorem test_step_v42 : xmmAfter 0 (step v42) = some (0xFFFFFFFF0000000000000000FFFFFFFF, 0x1008) := by decide
theorem test_step_v61 : raisedBy (step (setGpr (start [0x66, 0x0F, 0x64, 0x00]) 0 0x2008)) = some ⟨.gp, 0x1000⟩ := by decide
theorem test_step_v56 : raisedBy (step { start [0x66, 0x0F, 0x65, 0xC1] with cr4osfxsr := false }) = some ⟨.ud, 0x1000⟩ := by
  decide

/-- The state of V68: PCMPGTD mm0, [EAX] at a faulting page. -/
def v68 : State :=
  { setGpr (start [0x0F, 0x66, 0x00]) 0 0x5000 with
    cfg := { Config.reset with pageFaults := [.page ⟨0x5000, 0x5FFF⟩ 4] } }

theorem test_step_v68 : raisedBy (step v68) = some ⟨.pf 4, 0x1000⟩ := by decide

/-! The checks before the operand: the table of section 2.5. -/

/-- A state with the given EM, TS, OSFXSR and pending bit. -/
def bits (em ts osfxsr pending : Bool) : State :=
  { State.reset with cr0em := em, cr0ts := ts, cr4osfxsr := osfxsr, x87pending := pending }

theorem test_checks_64 :
    preChecks .s64 (bits false false true false) = none ∧ preChecks .s64 (bits true false true false) = some .ud ∧
    preChecks .s64 (bits false true true false) = some .nm ∧ preChecks .s64 (bits false false true true) = some .mf ∧
    preChecks .s64 (bits true true true true) = some .ud ∧ preChecks .s64 (bits false true true true) = some .nm ∧
    preChecks .s64 (bits false false false false) = none := by decide

theorem test_checks_128 :
    preChecks .s128 (bits false false true true) = none ∧ preChecks .s128 (bits false false false false) = some .ud ∧
    preChecks .s128 (bits true false true false) = some .ud ∧ preChecks .s128 (bits false true true false) = some .nm ∧
    preChecks .s128 (bits false true false false) = some .ud := by decide

/-- #MF outside Protected mode follows the parameter (60_exceptions.md R96). -/
theorem test_checks_mf_outside :
    preChecks .s64 { bits false false true true with cfg := { Config.reset with mode := .virtual8086 } } = some .mf ∧
    preChecks .s64 { bits false false true true with cfg := { Config.reset with mode := .virtual8086, mfOutsideProtected := false } } =
      none := by decide

/-! The operand checks at their boundaries: V64 to V72. -/

/-- Protected mode with DS and SS limited to 2FFFH. -/
def limited : State :=
  { State.reset with segs := { State.reset.segs with ds := ⟨0, 0x2FFF⟩, ss := ⟨0, 0x2FFF⟩ } }

/-- RealAddress mode. -/
def real : State := { State.reset with cfg := { Config.reset with mode := .realAddress } }

theorem test_range_v64_v65_v66 :
    rangeFault limited .ds 0x2FF8 8 = none ∧ rangeFault limited .ds 0x2FF9 8 = some .gp ∧
    rangeFault limited .ss 0x2FF9 8 = some .ss := by decide
theorem test_range_v70_v71_v72 :
    rangeFault real .ds 0xFFF8 8 = none ∧ rangeFault real .ds 0xFFF9 8 = some .gp ∧ rangeFault real .ss 0xFFFC 8 = some .gp := by
  decide

/-- V67: either report is admitted, whatever the free value. -/
theorem test_report_v67 (n : Nat) :
    reportFault n (rangeFault limited .ss 0x2FF8 16) (alignFault limited .ss 0x2FF8 16) = some .ss ∨
    reportFault n (rangeFault limited .ss 0x2FF8 16) (alignFault limited .ss 0x2FF8 16) = some .gp := by
  rw [show rangeFault limited .ss 0x2FF8 16 = some .ss by decide, show alignFault limited .ss 0x2FF8 16 = some .gp by decide]
  cases h : Config.freeReport n <;> simp [reportFault, h]

/-- V74: no page fault in RealAddress mode. -/
theorem test_page_v74 : pageFault { v68 with cfg := { v68.cfg with mode := .realAddress } } 0x5000 8 = none := by decide

/-- A verdict on whole reads: the 16-byte read faults where the 8-byte read of the same bytes does not (R40). -/
theorem test_translate_by_size :
    Machine.translate { Config.reset with pageFaults := [.reads ⟨0x5000, 0x5000⟩ 16 3] } 0x5000 16 = some 3 ∧
    Machine.translate { Config.reset with pageFaults := [.reads ⟨0x5000, 0x5000⟩ 16 3] } 0x5000 8 = none ∧
    Machine.translate { Config.reset with pageFaults := [.reads ⟨0x5000, 0x5000⟩ 16 3] } 0x5008 16 = none := by decide

/-! The end of a run and the launch (70_reset_and_hazards.md R121). -/

/-- With no program loaded the first step from reset is the end of the run. -/
theorem test_reset_has_no_program : (match step State.reset with | .fault f => some f | _ => none) = some .endOfRun := by decide

/-- Writing what an unlisted byte reads as removes the entry. -/
theorem test_write_removes : (store [] 5 [1, 2]).write 5 0 = [(6, 2)] := by decide

/-! Witnesses for the statements' hypotheses, in the statements' order. -/

theorem test_witness_DecodeEncodeRoundTrip : WellFormed Config.reset (.pcmpgtdXmm [.opSize, .segment .ss] 7 (.mem32 (.sibNoBase 3 7 0xFFFFFFFF))) := by
  decide

theorem test_witness_DecodedBytesAreTheEncoding :
    decode Config.reset [0x0F, 0x64, 0xC1, 0x0F] = .ok (.pcmpgtbMm [] 0 (.reg 1), [0x0F]) := by decide

theorem test_witness_EncodedLengthIsThreeToEleven :
    WellFormed Config.reset (.pcmpgtbXmm [.opSize] 0 (.reg 1)) ∧ (Instr.pcmpgtbXmm [.opSize] 0 (.reg 1)).size = .s128 := by decide

theorem test_witness_ForeignBytesAreRefused :
    leadsOk [.opSize, .addrSize, .segment .gs] = true ∧ (leadOf 0x90 = none ∧ (0x90 : Byte) ≠ 0x0F#8) ∧
    (leadOf 0xF0 = none ∧ (0xF0 : Byte) ≠ 0x0F#8) ∧ (leadOf 0xF2 = none ∧ (0xF2 : Byte) ≠ 0x0F#8) ∧
    ((0x63 : Byte) ≠ 0x64#8 ∧ (0x63 : Byte) ≠ 0x65#8 ∧ (0x63 : Byte) ≠ 0x66#8) ∧
    ((0x67 : Byte) ≠ 0x64#8 ∧ (0x67 : Byte) ≠ 0x65#8 ∧ (0x67 : Byte) ≠ 0x66#8) := by decide

theorem test_witness_RepeatedLeadingBytesAreRefused :
    1 < [Lead.opSize, .opSize].count .opSize ∧ 1 < [Lead.addrSize, .addrSize].count .addrSize ∧
    1 < [Lead.segment .cs, .segment .cs].countP isOverride := by decide

theorem test_witness_TruncatedInstructionIsRefused :
    WellFormed Config.reset (.pcmpgtbMm [] 0 (.mem32 (.direct 1))) ∧
    encode (.pcmpgtbMm [] 0 (.mem32 (.direct 1))) = [0x0F, 0x64, 0x05, 0x01, 0x00, 0x00] ++ [0x00] ∧
    ([0x00] : List Byte) ≠ [] := by decide

theorem test_witness_EveryModRmByteIsMeaningful :
    leadsOk [.segment .es] = true ∧ (0xFF : Byte).extractLsb' 6 2 = 3#2 ∧ (0xBF : Byte).extractLsb' 6 2 ≠ 3#2 := by decide

theorem test_witness_DecodedBytesMatchTheirTableRow :
    decode Config.reset [0x66, 0x0F, 0x64, 0xC1] = .ok (.pcmpgtbXmm [.opSize] 0 (.reg 1), []) ∧
    Lead.addrSize ∉ (Instr.pcmpgtbXmm [.opSize] 0 (.reg 1)).lead ∧
    (0x660F64C1#32 &&& (tableRow true .b).1 = (tableRow true .b).2) := by decide

theorem test_witness_DecodedBytesMatchTheirTableRow_no_override :
    ∀ g, Lead.segment g ∉ (Instr.pcmpgtbXmm [.opSize] 0 (.reg 1)).lead := by intro g; simp [Instr.lead]

theorem test_witness_WithoutSse2TheBytesAreThe64BitForm :
    WellFormed Config.reset (Instr.form .s128 .w [.opSize] 0 (.reg 1)) := by decide

theorem test_witness_SegmentIsTheOverrideOrTheDefault :
    leadsOk [.opSize, .segment .gs] = true ∧ Lead.segment .gs ∈ [Lead.opSize, .segment .gs] ∧
    memOperand v40 [.opSize, .segment .gs] (.mem32 (.based 0 .none)) = some (.gs, 0x2000) := by decide

theorem test_witness_SegmentIsTheOverrideOrTheDefault_no_override :
    (∀ g, Lead.segment g ∉ [Lead.addrSize]) ∧ memOperand v40 [] (.mem32 (.based 5 (.d8 0))) = some (.ss, 0) ∧
    memOperand v40 [] (.mem32 (.direct 9)) = some (.ds, 9) ∧ memOperand v40 [] (.mem32 (.sib 0 0 4 .none)) = some (.ss, 0x2000) ∧
    memOperand v40 [] (.mem32 (.sibNoBase 1 0 1)) = some (.ds, 0x4001) ∧ memOperand v40 [] (.mem16 (.based 6 (.d8 1))) = some (.ss, 1) ∧
    memOperand v40 [] (.mem16 (.direct 7)) = some (.ds, 7) := by
  refine ⟨?_, by decide, by decide, by decide, by decide, by decide, by decide⟩
  intro g; simp

theorem test_witness_MemReadReturnsWhatMemWriteStored :
    16 ≤ 2 ^ 32 ∧ v40.mem.wf = true ∧ ∀ k < 16, holds v40.cfg (byteAddr 0xFFFFFFF8 k) = true := by decide

theorem test_witness_SignedOrderIsUnsignedOrderWithSignBitsFlipped : ElementWidth 8 ∧ ElementWidth 16 ∧ ElementWidth 32 := by
  unfold ElementWidth; decide

theorem test_witness_OperationTextInAnyLaneOrderIsThePackedCompare :
    ElementWidth 32 ∧ OperandWidth 64 ∧ [1, 0].Perm (List.range (64 / 32)) := by
  unfold ElementWidth OperandWidth; decide

theorem test_witness_PackedCompareProperties : ElementWidth 16 ∧ OperandWidth 64 ∧ OperandWidth 128 ∧ 3 < 64 / 16 := by
  unfold ElementWidth OperandWidth; decide

/-- V40's instruction. -/
def i40 : Instr := .pcmpgtbMm [] 1 (.mem32 (.based 0 .none))

/-- V42's instruction. -/
def i42 : Instr := .pcmpgtdXmm [.opSize] 0 (.mem32 (.direct 0x2000))

theorem test_witness_ready_64 : Ready .s64 v40 := ⟨rfl, rfl, fun h => nomatch h.1⟩

theorem test_witness_ready_128 : Ready .s128 v42 := ⟨rfl, rfl, rfl⟩

theorem test_witness_Every64BitFormCompletesWithItsResult :
    i40.size = .s64 ∧ Ready .s64 v40 ∧ Source64Is v40 i40 0x7F8001FF0005FE10 := by
  refine ⟨rfl, test_witness_ready_64, ?_, ?_, .inr (fun _ h => absurd h List.not_mem_nil), ⟨by decide, (fun _ h => absurd h List.not_mem_nil)⟩, ?_⟩
  · unfold InRange; decide
  · unfold Aligned; decide
  · unfold BytesAre; decide

theorem test_witness_Every64BitFormCompletesWithItsResult_register :
    (Instr.pcmpgtwMm [] 2 (.reg 1)).size = .s64 ∧ Ready .s64 v40 ∧
    Source64Is v40 (.pcmpgtwMm [] 2 (.reg 1)) 0x807F0100FF04FF10 := ⟨rfl, test_witness_ready_64, 1, rfl, by decide⟩

theorem test_witness_Every128BitFormCompletesWithItsResult :
    i42.size = .s128 ∧ Ready .s128 v42 ∧ Source128Is v42 i42 0xFFFFFFFF000000017FFFFFFF80000000 := by
  refine ⟨rfl, test_witness_ready_128, ?_, ?_, .inr (fun _ h => absurd h List.not_mem_nil), ⟨by decide, (fun _ h => absurd h List.not_mem_nil)⟩, ?_⟩
  · unfold InRange; decide
  · unfold Aligned; decide
  · unfold BytesAre; decide

theorem test_witness_Every128BitFormCompletesWithItsResult_register :
    (Instr.pcmpgtwXmm [.opSize] 2 (.reg 1)).size = .s128 ∧ Ready .s128 v42 ∧
    Source128Is v42 (.pcmpgtwXmm [.opSize] 2 (.reg 1)) 0 := ⟨rfl, test_witness_ready_128, 1, rfl, by decide⟩

theorem test_witness_SameRegisterGivesAllZeros :
    ((Instr.pcmpgtbMm [] 4 (.reg 4)).src = .reg 4 ∧ Ready .s64 v40) ∧
    ((Instr.pcmpgtbXmm [.opSize] 7 (.reg 7)).src = .reg 7 ∧ Ready .s128 v42) :=
  ⟨⟨rfl, test_witness_ready_64⟩, rfl, test_witness_ready_128⟩

/-- V40's state with TS set. -/
def switched : State := { v40 with cr0ts := true }

theorem test_witness_EveryNextStateIsCompletionOrException :
    (∃ t, exec i40 v40 = .next t) ∧ ∃ t, exec i40 switched = .next t := ⟨⟨_, rfl⟩, _, rfl⟩

theorem test_witness_RaisingChangesNoArchitecturalState :
    switched.fault = none ∧ ∃ t r, exec i40 switched = .next t ∧ t.fault = some r := ⟨rfl, _, _, rfl, rfl⟩

theorem test_witness_ResultDependsOnlyOnTheOperands :
    ∃ t t', exec (.pcmpgtwMm [] 1 (.reg 2)) v40 = .next t ∧
      exec (.pcmpgtwMm [] 1 (.reg 2)) { v40 with cr4osfxsr := false, cfg := real.cfg } = .next t' ∧
      v40.fault = none ∧ t.fault = none ∧ t'.fault = none ∧
      v40.getMm 1 = ({ v40 with cr4osfxsr := false, cfg := real.cfg } : State).getMm 1 ∧
      Source64Is v40 (.pcmpgtwMm [] 1 (.reg 2)) 0 ∧
      Source64Is { v40 with cr4osfxsr := false, cfg := real.cfg } (.pcmpgtwMm [] 1 (.reg 2)) 0 :=
  ⟨_, _, rfl, rfl, rfl, rfl, rfl, rfl, ⟨2, rfl, by decide⟩, ⟨2, rfl, by decide⟩⟩

theorem test_witness_ResultDependsOnlyOnTheOperands_128 :
    ∃ t t', exec (.pcmpgtwXmm [.opSize] 1 (.reg 2)) v42 = .next t ∧
      exec (.pcmpgtwXmm [.opSize] 1 (.reg 2)) { v42 with x87pending := true, cfg := real.cfg } = .next t' ∧
      v42.fault = none ∧ t.fault = none ∧ t'.fault = none ∧
      v42.getXmm 1 = ({ v42 with x87pending := true, cfg := real.cfg } : State).getXmm 1 ∧
      Source128Is v42 (.pcmpgtwXmm [.opSize] 1 (.reg 2)) 0 ∧
      Source128Is { v42 with x87pending := true, cfg := real.cfg } (.pcmpgtwXmm [.opSize] 1 (.reg 2)) 0 :=
  ⟨_, _, rfl, rfl, rfl, rfl, rfl, rfl, ⟨2, rfl, by decide⟩, ⟨2, rfl, by decide⟩⟩

/-- A recorded exception is the one `Raises` speaks of. -/
theorem raises_of_exec {i : Instr} {s : State} {e : Exn} (h : exec i s = .next (raise e s)) : Raises i s e :=
  ⟨_, h, ⟨rfl, rfl, rfl, rfl, rfl, rfl, rfl, rfl, rfl, fun _ => rfl, rfl, rfl⟩, rfl, rfl, rfl, rfl, rfl⟩

theorem test_witness_Ud64ExactlyWhenEmulationIsSet :
    i40.size = .s64 ∧ { v40 with cr0em := true }.fault = none ∧ Raises i40 { v40 with cr0em := true } .ud :=
  ⟨rfl, rfl, raises_of_exec rfl⟩

theorem test_witness_Ud128ExactlyWhenEmulationOrNoOsfxsr :
    i42.size = .s128 ∧ { v42 with cr4osfxsr := false }.fault = none ∧ Raises i42 { v42 with cr4osfxsr := false } .ud :=
  ⟨rfl, rfl, raises_of_exec rfl⟩

theorem test_witness_NmExactlyWhenTaskSwitched : switched.fault = none ∧ Raises i40 switched .nm :=
  ⟨rfl, raises_of_exec rfl⟩

theorem test_witness_MfExactlyFor64BitFormsWithPendingException :
    { v40 with x87pending := true }.fault = none ∧ Raises i40 { v40 with x87pending := true } .mf :=
  ⟨rfl, raises_of_exec rfl⟩

/-- V65's and V66's states: one byte beyond the limit. -/
def v65 : State := { setGpr limited 0 0x2FF9 with pc := 0x1000 }
def v66 : State := { setGpr limited 5 0x3001 with pc := 0x1000 }

theorem test_witness_ProtectedModeLimitRaisesGpOrSs_ds :
    memOperand v65 [] (.mem32 (.based 0 .none)) = some (.ds, 0x2FF9) ∧ Ready .s64 v65 ∧ Seg.ds ∉ v65.cfg.nonPlain ∧
    v65.cfg.mode = .protectedMode ∧ ¬ InRange v65 .ds 0x2FF9 8 ∧ Seg.ds ≠ .ss := by
  refine ⟨by decide, ⟨rfl, rfl, fun h => nomatch h.1⟩, by decide, rfl, ?_, by decide⟩
  unfold InRange; decide

theorem test_witness_ProtectedModeLimitRaisesGpOrSs_ss :
    memOperand v66 [] (.mem32 (.based 5 (.d8 0xF8))) = some (.ss, 0x2FF9) ∧ Ready .s64 v66 ∧ Seg.ss ∉ v66.cfg.nonPlain ∧
    v66.cfg.mode = .protectedMode ∧ ¬ InRange v66 .ss 0x2FF9 8 ∧ Aligned v66 .ss 0x2FF9 8 := by
  refine ⟨by decide, ⟨rfl, rfl, fun h => nomatch h.1⟩, by decide, rfl, ?_, ?_⟩
  · unfold InRange; decide
  · unfold Aligned; decide

theorem test_witness_ProtectedModeLimitRaisesGpOrSs_both :
    memOperand v66 [.opSize] (.mem32 (.based 5 (.d8 0xF7))) = some (.ss, 0x2FF8) ∧ Ready .s128 v66 ∧
    Seg.ss ∉ v66.cfg.nonPlain ∧ v66.cfg.mode = .protectedMode ∧ ¬ InRange v66 .ss 0x2FF8 16 ∧ ¬ Aligned v66 .ss 0x2FF8 16 := by
  refine ⟨by decide, ⟨rfl, rfl, rfl⟩, by decide, rfl, ?_, ?_⟩
  · unfold InRange; decide
  · unfold Aligned; decide

/-- V71's state. -/
def v71 : State := setGpr real 3 0xFFF9

theorem test_witness_RealAddressRangeRaisesGp :
    memOperand v71 [] (.mem16 (.based 7 .none)) = some (.ds, 0xFFF9) ∧ Ready .s64 v71 ∧ Seg.ds ∉ v71.cfg.nonPlain ∧
    v71.cfg.mode ≠ .protectedMode ∧ ¬ InRange v71 .ds 0xFFF9 8 := by
  refine ⟨by decide, ⟨rfl, rfl, fun h => nomatch h.1⟩, by decide, by decide, ?_⟩
  unfold InRange; decide

/-- V62's state. -/
def v62 : State := setGpr State.reset 0 0x2001

theorem test_witness_MisalignedM128RaisesGp :
    memOperand v62 [.opSize] (.mem32 (.based 0 .none)) = some (.ds, 0x2001) ∧ Ready .s128 v62 ∧ Seg.ds ∉ v62.cfg.nonPlain ∧
    ¬ Aligned v62 .ds 0x2001 16 := by
  refine ⟨by decide, ⟨rfl, rfl, rfl⟩, by decide, ?_⟩
  unfold Aligned; decide

theorem test_witness_TouchedPageFaultIsRaisedWithItsCode :
    memOperand v68 [] (.mem32 (.based 0 .none)) = some (.ds, 0x5000) ∧ Ready .s64 v68 ∧ Seg.ds ∉ v68.cfg.nonPlain ∧
    v68.cfg.mode ≠ .realAddress ∧ InRange v68 .ds 0x5000 8 ∧ Aligned v68 .ds 0x5000 8 ∧ ¬ NoPageFault v68 .ds 0x5000 8 := by
  refine ⟨by decide, ⟨rfl, rfl, fun h => nomatch h.1⟩, by decide, by decide, ?_, ?_, ?_⟩
  · unfold InRange; decide
  · unfold Aligned; decide
  · rintro (h | h)
    · exact absurd h (by decide)
    · exact h (.page ⟨0x5000, 0x5FFF⟩ 4) (by decide) ⟨0, by decide, by decide⟩

theorem test_witness_TranslateIsAnyVerdictFunction :
    ((8 : Nat) = 8 ∨ 8 = 16) ∧ ((16 : Nat) = 8 ∨ 16 = 16) ∧ PageFault.page ⟨0x5000, 0x5FFF⟩ 4 ∈ v68.cfg.pageFaults ∧
    Touches 0x4FF9 8 ⟨0x5000, 0x5FFF⟩ := ⟨by decide, by decide, by decide, 7, by decide, by decide⟩

theorem test_witness_OnlyTheListedExceptionsAreRaised :
    v65.fault = none ∧ Raises (.pcmpgtbMm [] 0 (.mem32 (.based 0 .none))) v65 .gp ∧ v66.fault = none ∧
    Raises (.pcmpgtwMm [] 6 (.mem32 (.based 5 (.d8 0xF8)))) v66 .ss ∧ v68.fault = none ∧
    Raises (.pcmpgtdMm [] 0 (.mem32 (.based 0 .none))) v68 (.pf 4) :=
  ⟨rfl, raises_of_exec rfl, rfl, raises_of_exec rfl, rfl, raises_of_exec rfl⟩

/-- A handler's cure that leaves TS clear and all else as V40 has it. -/
def clearTs : Cure where
  cr0em := false
  cr0ts := false
  cr4osfxsr := true
  x87pending := false
  cfg := v40.cfg
  segs := v40.segs
  mem := v40.mem

theorem test_witness_RestartAfterTheCauseIsCleared :
    switched.fault = none ∧ ∃ t u r, exec i40 switched = .next t ∧ t.fault = some r ∧
      exec i40 (clearTs.apply switched) = .next u ∧ u.fault = none := ⟨rfl, _, _, _, rfl, rfl, rfl, rfl⟩

/-- V40's state in a launch whose memory ends inside the operand. -/
def shortRam : State := { v40 with cfg := { v40.cfg with ram := [⟨0, 0x2006⟩] } }

theorem test_witness_ReadOfAbsentMemoryIsStuck :
    memOperand shortRam i40.lead i40.src = some (.ds, 0x2000) ∧ Ready .s64 shortRam ∧ InRange shortRam .ds 0x2000 8 ∧
    Aligned shortRam .ds 0x2000 8 ∧ NoPageFault shortRam .ds 0x2000 8 ∧ Admitted shortRam .ds 0x2000 8 ∧
    ∃ k < 8, shortRam.byteAt (byteAddr ((shortRam.seg .ds).base + 0x2000) k) = none := by
  refine ⟨by decide, ⟨rfl, rfl, fun h => nomatch h.1⟩, ?_, ?_, .inr (fun _ h => absurd h List.not_mem_nil), ⟨by decide, (fun _ h => absurd h List.not_mem_nil)⟩, 7, by decide, by decide⟩
  · unfold InRange; decide
  · unfold Aligned; decide

/-- V40's state in a launch whose DS is not plain, and in one with a device at the operand's last byte. -/
def badSegment : State := { v40 with cfg := { v40.cfg with nonPlain := [.ds] } }
def deviceAtEnd : State := { v40 with cfg := { v40.cfg with devices := [⟨0x2007, 0x2007⟩] } }

theorem test_witness_OperandOutsideThePremisesIsRefused :
    (memOperand badSegment i40.lead i40.src = some (.ds, 0x2000) ∧ Ready .s64 badSegment ∧ Seg.ds ∈ badSegment.cfg.nonPlain) ∧
    (memOperand deviceAtEnd i40.lead i40.src = some (.ds, 0x2000) ∧ Ready .s64 deviceAtEnd ∧ Seg.ds ∉ deviceAtEnd.cfg.nonPlain ∧
      InRange deviceAtEnd .ds 0x2000 8 ∧ Aligned deviceAtEnd .ds 0x2000 8 ∧ NoPageFault deviceAtEnd .ds 0x2000 8 ∧
      ∃ r ∈ deviceAtEnd.cfg.devices, Touches ((deviceAtEnd.seg .ds).base + 0x2000) 8 r) := by
  refine ⟨⟨by decide, ⟨rfl, rfl, fun h => nomatch h.1⟩, by decide⟩, by decide, ⟨rfl, rfl, fun h => nomatch h.1⟩, by decide,
    ?_, ?_, .inr (fun _ h => absurd h List.not_mem_nil), ⟨0x2007, 0x2007⟩, by decide, 7, by decide, by decide⟩
  · unfold InRange; decide
  · unfold Aligned; decide

theorem test_witness_StepRunsTheDecodedInstruction :
    v40.fault = none ∧ launchRefusal v40 = none ∧ fetch v40 = .ok [0x0F, 0x64, 0x08] ∧
    decode v40.cfg [0x0F, 0x64, 0x08] = .ok (i40, []) ∧ WellFormed v40.cfg i40 := by decide

/-- The launch premises hold of V40's state. -/
theorem test_witness_launch : LaunchOk v40 := ⟨rfl, rfl, rfl, rfl, rfl, by decide, by decide⟩

theorem test_witness_StepRunsTheInstructionInTheText :
    v40.fault = none ∧ LaunchOk v40 ∧ WellFormed v40.cfg i40 ∧ v40.text = [] ++ encode i40 ++ [] ∧
    v40.pc.toNat = v40.textBase.toNat + ([] : List Byte).length := ⟨rfl, test_witness_launch, by decide, by decide, by decide⟩

theorem test_witness_RecordedExceptionIsTerminal : ({ v40 with fault := some ⟨.ud, 0x1000⟩ } : State).fault = some ⟨.ud, 0x1000⟩ :=
  rfl

theorem test_witness_RunEndsOnePastTheText : FinalState { v40 with pc := 0x1003 } ∧ LaunchOk { v40 with pc := 0x1003 } :=
  ⟨⟨by decide, rfl⟩, ⟨rfl, rfl, rfl, rfl, rfl, by decide, by decide⟩⟩

/-- V40's state with a debug feature on, and with the text one byte longer than the code segment. -/
def debugged : State := { v40 with cfg := { v40.cfg with noDebug := false } }
def overLimit : State := { v40 with segs := { v40.segs with cs := ⟨0, 0x1001⟩ } }

theorem test_witness_BrokenLaunchPremiseIsRefused :
    debugged.fault = none ∧ ¬ LaunchOk debugged ∧ overLimit.fault = none ∧ ¬ LaunchOk overLimit :=
  ⟨rfl, (fun h => nomatch h.noDebug), rfl, fun h => absurd h.insideLimit (by decide)⟩

theorem test_witness_StepKeepsTheInvariant : Inv switched ∧ ∃ t, step switched = .next t := by
  refine ⟨⟨by decide, fun h => absurd rfl h, ?_, ?_, ?_, ?_, ?_, ?_⟩, _, rfl⟩ <;> intros <;> contradiction

theorem test_witness_RunsWriteOnlyTheirDestinations :
    (∃ t, Sys2Proof.core.run 1 v40 = .next t) ∧ executed 1 v40 = [i40] ∧ (∀ i ∈ executed 1 v40, i.size = .s64 → i.dst ≠ 2) ∧
    ∀ i ∈ executed 1 v40, i.size = .s128 → i.dst ≠ 1 := ⟨⟨_, rfl⟩, by decide, by decide, by decide⟩

theorem test_witness_RunsWriteOnlyTheirDestinations_x87 :
    (∃ t, Sys2Proof.core.run 1 v42 = .next t) ∧ ∀ i ∈ executed 1 v42, i.size = .s128 := ⟨⟨_, rfl⟩, by decide⟩

theorem test_witness_EveryRunEndsWithinTheText : v40.text.length / 3 < 2 := by decide

end Sys2Proof.Tests
end

section
/-! The data memory after `MemWrite` (00_scope.md R7, 20_memory.md R33, R41): what each address reads as, and that `MemRead`
gives the stored vector back. -/

namespace Sys2Proof.Machine

/-- Byte `k` of the bytes above the lowest one is byte `k + 1`. -/
theorem extractLsb'_shiftRight_byte {w : Nat} (v : BitVec w) (k : Nat) :
    (v >>> 8).extractLsb' (8 * k) 8 = v.extractLsb' (8 * (k + 1)) 8 := by
  apply BitVec.eq_of_getLsbD_eq
  intro j hj
  simp only [BitVec.getLsbD_extractLsb', BitVec.getLsbD_ushiftRight, hj, decide_true, Bool.true_and]
  congr 1; omega

/-- Byte 0 is the lowest byte, as a write stores it first. -/
theorem setWidth_eq_byte_zero {w : Nat} (v : BitVec w) : v.setWidth 8 = v.extractLsb' (8 * 0) 8 := by
  apply BitVec.eq_of_getLsbD_eq
  intro j hj
  simp [hj]

/-- A write of several bytes leaves every other address as it was. -/
theorem Memory.read_writeLE_of_notMem {w x : Nat} {m : Memory} {as : List Nat} (v : BitVec w) (h : m.wf = true)
    (ha : ∀ a ∈ as, a < 2 ^ 32) (hx : x ∉ as) : (m.writeLE as v).read x = m.read x := by
  induction as generalizing m v with
  | nil => rfl
  | cons a as ih =>
    obtain ⟨hxa, hxas⟩ := not_or.mp (List.mem_cons.not.mp hx)
    obtain ⟨ha0, has⟩ := List.forall_mem_cons.mp ha
    calc (Memory.writeLE (m.write a (v.setWidth 8)) as (v >>> 8)).read x
        = (m.write a (v.setWidth 8)).read x := ih _ (Memory.write_wf _ h ha0) has hxas
      _ = m.read x := by rw [Memory.read_write _ _ _ h, if_neg hxa]

/-- After a write of several bytes at distinct addresses, the `k`-th address reads as byte `k` (20_memory.md R33). -/
theorem Memory.read_writeLE_getElem {w : Nat} {m : Memory} {as : List Nat} (v : BitVec w) (h : m.wf = true)
    (ha : ∀ a ∈ as, a < 2 ^ 32) (hnd : as.Nodup) (k : Nat) (hk : k < as.length) :
    (m.writeLE as v).read as[k] = v.extractLsb' (8 * k) 8 := by
  induction as generalizing m v k with
  | nil => exact absurd hk (Nat.not_lt_zero k)
  | cons a as ih =>
    obtain ⟨ha0, has⟩ := List.forall_mem_cons.mp ha
    obtain ⟨hnotMem, hnd'⟩ := List.nodup_cons.mp hnd
    have hwf := Memory.write_wf (v.setWidth 8) h ha0
    cases k with
    | zero =>
      -- the later bytes go elsewhere, so the first address keeps the lowest byte
      calc (Memory.writeLE (m.write a (v.setWidth 8)) as (v >>> 8)).read a
          = (m.write a (v.setWidth 8)).read a := Memory.read_writeLE_of_notMem _ hwf has hnotMem
        _ = v.extractLsb' (8 * 0) 8 := by
          rw [Memory.read_write _ _ _ h, if_pos rfl, setWidth_eq_byte_zero]
    | succ k => exact (ih _ hwf has hnd' k (Nat.lt_of_succ_lt_succ hk)).trans (extractLsb'_shiftRight_byte v k)

/-- The addresses of an operand, in the claims' terms (20_memory.md R41). -/
theorem operandAddrs_eq_map (lin : Dword) (n : Nat) : operandAddrs lin n = (List.range n).map (byteAddr lin) := by
  simp only [operandAddrs, byteAddr_eq]

/-- The bytes of an operand no longer than the address space stand at distinct addresses. -/
theorem operandAddrs_nodup (lin : Dword) {n : Nat} (hn : n ≤ 2 ^ 32) : (operandAddrs lin n).Nodup := by
  rw [operandAddrs_eq_map]
  refine List.Nodup.map_on ?_ List.nodup_range
  intro j hj k hk hjk
  rw [List.mem_range] at hj hk
  unfold byteAddr at hjk
  omega

/-- `MemWrite` changes no launch parameter. -/
@[simp] theorem memWrite_cfg {w : Nat} (s : State) (lin : Dword) (n : Nat) (v : BitVec w) :
    (s.memWrite lin n v).cfg = s.cfg := rfl

/-- Where the launch holds memory, a byte is what the memory reads as there. -/
theorem byteAt_of_holds {s : State} {a : Nat} (h : holds s.cfg a = true) : s.byteAt a = some (s.mem.read a) :=
  if_pos h

/-- `MemWrite` puts byte `k` of the value at the linear address plus `k` (20_memory.md R33, R41). -/
theorem memWrite_bytesAre {s : State} {lin : Dword} {n w : Nat} (v : BitVec w) (hn : n ≤ 2 ^ 32) (hwf : s.mem.wf = true)
    (hram : ∀ k < n, holds s.cfg (byteAddr lin k) = true) : BytesAre (s.memWrite lin n v) lin n v := by
  intro k hk
  have hlen : k < (operandAddrs lin n).length := by simpa [operandAddrs] using hk
  have haddr : (operandAddrs lin n)[k] = byteAddr lin k := by simp [operandAddrs_eq_map]
  have hread : (s.memWrite lin n v).mem.read (byteAddr lin k) = v.extractLsb' (8 * k) 8 := by
    rw [← haddr]
    exact Memory.read_writeLE_getElem v hwf (fun _ => operandAddrs_lt) (operandAddrs_nodup lin hn) k hlen
  rw [byteAt_of_holds (by simpa using hram k hk), hread]

/-- `MemWrite` leaves every byte outside the operand as it was. -/
theorem memWrite_byteAt_other {s : State} {lin : Dword} {n w a : Nat} (v : BitVec w) (hwf : s.mem.wf = true)
    (ha : ∀ k < n, a ≠ byteAddr lin k) : (s.memWrite lin n v).byteAt a = s.byteAt a := by
  have hnotMem : a ∉ operandAddrs lin n := by
    intro hmem
    obtain ⟨k, hk, hak⟩ := mem_operandAddrs.mp hmem
    exact ha k hk hak
  have hread : (s.memWrite lin n v).mem.read a = s.mem.read a :=
    Memory.read_writeLE_of_notMem v hwf (fun _ => operandAddrs_lt) hnotMem
  simp only [State.byteAt, memWrite_cfg, hread]

end Sys2Proof.Machine

namespace Sys2Proof.Proofs
open Sys2Proof.Machine

/-- Settles O14, by induction over the stored addresses, which are distinct. -/
theorem memReadReturnsWhatMemWriteStored : Obligations.MemReadReturnsWhatMemWriteStored := by
  unfold Obligations.MemReadReturnsWhatMemWriteStored
  intro s lin n v hn hwf hram
  have hbytes : BytesAre (s.memWrite lin n v) lin n v := memWrite_bytesAre v hn hwf hram
  exact ⟨(memRead_eq_some rfl).mpr hbytes, hbytes, fun a ha => memWrite_byteAt_other v hwf ha⟩

end Sys2Proof.Proofs
end

section
/-! Paging as a launch parameter (00_scope.md R4, 20_memory.md R40): the rows that write a verdict function out as data, one
row for each address at which it faults. -/

namespace Sys2Proof.Machine

/-- The row that gives the verdict on reads of `n` bytes at one address; none where the verdict is `Ok`. -/
def readRow (verdict : Dword → Nat → Option FaultCode) (n a : Nat) : Option PageFault :=
  (verdict (BitVec.ofNat 32 a) n).map (PageFault.reads ⟨a, a⟩ n)

/-- The rows that give the verdict on reads of `n` bytes at the addresses below a bound. -/
def readRows (verdict : Dword → Nat → Option FaultCode) (n bound : Nat) : List PageFault :=
  (List.range bound).filterMap (readRow verdict n)

/-- The row of an address applies to the reads of its size at that address and to no others. -/
theorem pageApplies_of_readRow {verdict : Dword → Nat → Option FaultCode} {n m a : Nat} {lin : Dword} {p : PageFault}
    (h : readRow verdict m a = some p) : pageApplies lin n p = decide (n = m ∧ a = lin.toNat) := by
  obtain ⟨code, -, rfl⟩ := Option.map_eq_some_iff.mp h
  rw [Bool.eq_iff_iff, pageApplies_iff, decide_eq_true_iff]
  simp only [FaultsOn]
  omega

/-- One address's row, where it applies to a read of `n` bytes at `lin`, is the row of `lin`. -/
theorem filter_readRow (verdict : Dword → Nat → Option FaultCode) (n m a : Nat) (lin : Dword) :
    (readRow verdict m a).toList.filter (pageApplies lin n) =
      if n = m ∧ a = lin.toNat then (readRow verdict n lin.toNat).toList else [] := by
  split
  case isTrue h =>
    obtain ⟨rfl, rfl⟩ := h
    cases hrow : readRow verdict n lin.toNat with
    | none => rfl
    | some p => simp [pageApplies_of_readRow hrow]
  case isFalse h =>
    cases hrow : readRow verdict m a with
    | none => rfl
    | some p => simp [pageApplies_of_readRow hrow, h]

/-- Of the rows for addresses below a bound, those that apply to a read are the row of the read's own address. -/
theorem filter_readRows (verdict : Dword → Nat → Option FaultCode) (n m bound : Nat) (lin : Dword) :
    (readRows verdict m bound).filter (pageApplies lin n) =
      if n = m ∧ lin.toNat < bound then (readRow verdict n lin.toNat).toList else [] := by
  induction bound with
  | zero => simp [readRows]
  | succ bound ih =>
    have hsplit : readRows verdict m (bound + 1) = readRows verdict m bound ++ (readRow verdict m bound).toList := by
      simp only [readRows, List.range_succ, List.filterMap_append]
      cases h : readRow verdict m bound <;> simp [h]
    rw [hsplit, List.filter_append, ih, filter_readRow]
    by_cases hnm : n = m
    · rcases Nat.lt_trichotomy lin.toNat bound with hlt | heq | hgt
      · simp [hnm, hlt, show bound ≠ lin.toNat by omega, show lin.toNat < bound + 1 by omega]
      · simp [hnm, heq]
      · simp [hnm, show ¬ lin.toNat < bound by omega, show bound ≠ lin.toNat by omega,
          show ¬ lin.toNat < bound + 1 by omega]
    · simp [hnm]

/-- Where the rows that apply to a read are at most one, the verdict is that row's code: no free value is drawn. -/
theorem translate_of_pageHits_toList {c : Config} {lin : Dword} {n : Nat} {row : Option PageFault}
    (h : pageHits c lin n = row.toList) : translate c lin n = row.map PageFault.code := by
  unfold translate
  rw [h]
  cases row <;> rfl

/-- The code of an address's row is the verdict there. -/
theorem readRow_map_code (verdict : Dword → Nat → Option FaultCode) (n : Nat) (lin : Dword) :
    (readRow verdict n lin.toNat).map PageFault.code = verdict lin n := by
  simp only [readRow, BitVec.ofNat_toNat, BitVec.setWidth_eq]
  cases verdict lin n <;> rfl

/-- The rows that give a verdict on every read of an operand, of 8 or 16 bytes. -/
def verdictRows (verdict : Dword → Nat → Option FaultCode) : List PageFault :=
  readRows verdict 8 (2 ^ 32) ++ readRows verdict 16 (2 ^ 32)

/-- One row at most applies to a read of an operand: that of its size and address. -/
theorem filter_verdictRows (verdict : Dword → Nat → Option FaultCode) (lin : Dword) {n : Nat} (hn : n = 8 ∨ n = 16) :
    (verdictRows verdict).filter (pageApplies lin n) = (readRow verdict n lin.toNat).toList := by
  rw [verdictRows, List.filter_append, filter_readRows, filter_readRows]
  rcases hn with rfl | rfl <;> simp [lin.isLt]

/-- A launch with a verdict function's rows has that function as its `Translate`, at the sizes an operand can have. -/
theorem translate_verdictRows (c : Config) (verdict : Dword → Nat → Option FaultCode) (lin : Dword) {n : Nat}
    (hn : n = 8 ∨ n = 16) : translate { c with pageFaults := verdictRows verdict } lin n = verdict lin n := by
  have hhits : pageHits { c with pageFaults := verdictRows verdict } lin n = (readRow verdict n lin.toNat).toList :=
    filter_verdictRows verdict lin hn
  rw [translate_of_pageHits_toList hhits, readRow_map_code]

/-- A read that some row applies to gets a fault code (20_memory.md R40). -/
theorem translate_isSome_of_faultsOn {c : Config} {lin : Dword} {n : Nat} {p : PageFault} (hp : p ∈ c.pageFaults)
    (h : FaultsOn lin n p) : ∃ reported, translate c lin n = some reported := by
  refine Option.ne_none_iff_exists'.mp fun hnone => ?_
  exact pageHits_nil_iff.mp (translate_none.mp hnone) p hp h

end Sys2Proof.Machine

namespace Sys2Proof.Proofs
open Sys2Proof.Machine

/-- Settles O48: a verdict function is the list of its values, a row for each size and address. -/
theorem translateIsAnyVerdictFunction : Obligations.TranslateIsAnyVerdictFunction := by
  unfold Obligations.TranslateIsAnyVerdictFunction
  constructor
  · intro c verdict
    exact ⟨verdictRows verdict, fun lin n hn => translate_verdictRows c verdict lin hn⟩
  · intro c lin n bytes code hrow htouches
    exact translate_isSome_of_faultsOn hrow htouches

end Sys2Proof.Proofs
end

section
/-! The encoder's bytes through the decoder (30_encoding.md R50 to R61): the ModRM byte and what follows it read back as the
source operand, and a whole encoding as its instruction. -/

namespace Sys2Proof

/-- An encoded source operand reads back: its first byte, ModRM, holds the destination register, and with that byte's `mod`
and `rm` the decoder takes the bytes after it as the operand, whatever stands behind them (30_encoding.md R53, R61). -/
def SrcReadsBack (size : AddrSize) (dst : RegNum) (src : Src) : Prop :=
  ∃ modrm tail, encodeSrc dst src = modrm :: tail ∧ fieldMid modrm = dst ∧
    ∀ rest, decodeSrc size (fieldHi modrm) (fieldLo modrm) (tail ++ rest) = .ok (src, rest)

/-- An operand whose ModRM byte is the three given fields reads back if its tail decodes under `mod` and `rm`. -/
theorem srcReadsBack_of_fields {size : AddrSize} {mod : BitVec 2} {dst rm : RegNum} {tail : List Byte} {src : Src}
    (hbytes : encodeSrc dst src = packFields mod dst rm :: tail)
    (hread : ∀ rest, decodeSrc size mod rm (tail ++ rest) = .ok (src, rest)) : SrcReadsBack size dst src :=
  ⟨packFields mod dst rm, tail, hbytes, fieldMid_packFields mod dst rm, fun rest => by
    rw [fieldHi_packFields, fieldLo_packFields, hread rest]⟩

/-- Every shape of a memory operand with 32-bit addressing reads back (30_encoding.md R54). -/
theorem srcReadsBack_mem32 {a : Addr32} (dst : RegNum) (h : addr32Ok a = true) : SrcReadsBack .a32 dst (.mem32 a) := by
  cases a with
  | based rm disp =>
    have hrm : rm ≠ 4#3 := by cases disp <;> simp_all [addr32Ok]
    cases disp with
    | none =>
      have hrm5 : rm ≠ 5#3 := by simp_all [addr32Ok]
      exact srcReadsBack_of_fields rfl fun rest => by simp [decodeSrc, decodeMem32, hrm, hrm5]
    | d8 d => exact srcReadsBack_of_fields rfl fun rest => by simp [decodeSrc, decodeMem32, hrm, take8]
    | d32 d => exact srcReadsBack_of_fields rfl fun rest => by simp [decodeSrc, decodeMem32, hrm, take32_le32]
  | direct d => exact srcReadsBack_of_fields rfl fun rest => by simp [decodeSrc, decodeMem32, take32_le32]
  | sib scale index base disp =>
    cases disp with
    | none =>
      have hbase : base ≠ 5#3 := by simpa [addr32Ok] using h
      exact srcReadsBack_of_fields rfl fun rest => by simp [decodeSrc, decodeMem32, decodeSib, hbase]
    | d8 d => exact srcReadsBack_of_fields rfl fun rest => by simp [decodeSrc, decodeMem32, decodeSib, take8]
    | d32 d => exact srcReadsBack_of_fields rfl fun rest => by simp [decodeSrc, decodeMem32, decodeSib, take32_le32]
  | sibNoBase scale index d =>
    exact srcReadsBack_of_fields rfl fun rest => by simp [decodeSrc, decodeMem32, decodeSib, take32_le32]

/-- Every shape of a memory operand with 16-bit addressing reads back (30_encoding.md R56). -/
theorem srcReadsBack_mem16 {a : Addr16} (dst : RegNum) (h : addr16Ok a = true) : SrcReadsBack .a16 dst (.mem16 a) := by
  cases a with
  | based rm disp =>
    cases disp with
    | none =>
      have hrm : rm ≠ 6#3 := by simpa [addr16Ok] using h
      exact srcReadsBack_of_fields rfl fun rest => by simp [decodeSrc, decodeMem16, hrm]
    | d8 d => exact srcReadsBack_of_fields rfl fun rest => by simp [decodeSrc, decodeMem16, take8]
    | d16 d => exact srcReadsBack_of_fields rfl fun rest => by simp [decodeSrc, decodeMem16, take16_le16]
  | direct d => exact srcReadsBack_of_fields rfl fun rest => by simp [decodeSrc, decodeMem16, take16_le16]

/-- Every source operand that belongs to the instruction's address size reads back (30_encoding.md R53, R58). -/
theorem srcReadsBack_of_srcOk {c : Config} {lead : List Lead} {src : Src} (dst : RegNum) (h : srcOk c lead src = true) :
    SrcReadsBack (addrSizeFor c lead) dst src := by
  cases src with
  | reg r => exact srcReadsBack_of_fields rfl fun rest => by simp [decodeSrc]
  | mem32 a =>
    obtain ⟨hsize, hok⟩ : addrSizeFor c lead = .a32 ∧ addr32Ok a = true := by simpa [srcOk] using h
    exact hsize ▸ srcReadsBack_mem32 dst hok
  | mem16 a =>
    obtain ⟨hsize, hok⟩ : addrSizeFor c lead = .a16 ∧ addr16Ok a = true := by simpa [srcOk] using h
    exact hsize ▸ srcReadsBack_mem16 dst hok

/-- The bytes of an instruction from its second opcode byte on decode to it (30_encoding.md R51, R53). -/
theorem decodeOpcode_encode {c : Config} {i : Instr} (hsize : opSizeFor c i.lead = i.size)
    (hsrc : srcOk c i.lead i.src = true) (rest : List Byte) :
    decodeOpcode c i.lead (opcodeByte i.width :: (encodeSrc i.dst i.src ++ rest)) = .ok (i, rest) := by
  obtain ⟨modrm, tail, hbytes, hdst, hread⟩ := srcReadsBack_of_srcOk i.dst hsrc
  simp [decodeOpcode, hbytes, hdst, hread, hsize, form_self]

/-- What a well-formed instruction meets, check by check (30_encoding.md R52, R58, R59). -/
theorem wellFormed_iff {c : Config} {i : Instr} :
    WellFormed c i ↔ leadsOk i.lead = true ∧ opSizeFor c i.lead = i.size ∧ srcOk c i.lead i.src = true := by
  simp [WellFormed, Instr.wellFormed, sizeOk, and_assoc]

/-- The encoding of a well-formed instruction decodes to it, whatever bytes stand behind it (30_encoding.md R60, R61). -/
theorem decode_encode_append {c : Config} {i : Instr} (h : WellFormed c i) (rest : List Byte) :
    decode c (encode i ++ rest) = .ok (i, rest) := by
  obtain ⟨hlead, hsize, hsrc⟩ := wellFormed_iff.mp h
  have hleads : takeLeads (encode i ++ rest) =
      (i.lead, 0x0F#8 :: opcodeByte i.width :: (encodeSrc i.dst i.src ++ rest)) := by
    simpa [encode] using takeLeads_append i.lead 0x0F#8 (opcodeByte i.width :: (encodeSrc i.dst i.src ++ rest)) rfl
  simp [decode, hleads, (leadsReject_none i.lead).mpr hlead, decodeOpcode_encode hsize hsrc rest]

/-- An encoding has bytes: `0F` at least (30_encoding.md R50). -/
theorem encode_length_pos (i : Instr) : 0 < (encode i).length := by simp [encode]

end Sys2Proof
end

section
/-! One step, said once: what it does where its checks pass, and what a step that answers a next state did (10_state.md R19,
20_memory.md R47, 70_reset_and_hazards.md R121, R123). -/

namespace Sys2Proof.Machine

/-- The text fits exactly when it lies inside the code segment limit and below `2^32` (10_state.md R19). -/
theorem textFits_iff {s : State} :
    s.textFits = true ↔ s.textBase.toNat + s.text.length ≤ s.segs.cs.limit.toNat + 1 ∧
      s.textBase.toNat + s.text.length < 2 ^ 32 := by
  rw [State.textFits, Bool.and_eq_true, decide_eq_true_iff, decide_eq_true_iff, State.textEnd]

/-- A launch is not refused exactly when it meets the premises (70_reset_and_hazards.md R123). -/
theorem launchRefusal_none_iff {s : State} : launchRefusal s = none ↔ LaunchOk s := by
  constructor
  · intro h
    obtain ⟨halign, hwriter, hfetch, hdebug, hint, hfits⟩ : s.cfg.noAlignmentCheck = true ∧ s.cfg.singleWriter = true ∧
        s.cfg.textFetchable = true ∧ s.cfg.noDebug = true ∧ s.cfg.noInterrupts = true ∧ s.textFits = true := by
      simpa [launchRefusal, ite_eq_iff] using h
    obtain ⟨hlimit, htop⟩ := textFits_iff.mp hfits
    exact ⟨halign, hwriter, hfetch, hdebug, hint, hlimit, htop⟩
  · intro h
    have hfits : s.textFits = true := textFits_iff.mpr ⟨h.insideLimit, h.belowTop⟩
    simp [launchRefusal, h.noAlignmentCheck, h.singleWriter, h.textFetchable, h.noDebug, h.noInterrupts, hfits]

/-- Where `pc` stands after some bytes of the text and before others, the fetch answers those others (20_memory.md R47). -/
theorem fetch_of_text {s : State} {before after : List Byte} (htext : s.text = before ++ after) (hne : 0 < after.length)
    (hpc : s.pc.toNat = s.textBase.toNat + before.length) : fetch s = .ok after := by
  have hend : s.textEnd = s.textBase.toNat + before.length + after.length := by
    simp only [State.textEnd, htext, List.length_append]; omega
  have hnotEnd : ¬ s.pc.toNat = s.textEnd := by omega
  have hinside : s.textBase.toNat ≤ s.pc.toNat ∧ s.pc.toNat < s.textEnd := by omega
  have hoffset : s.pc.toNat - s.textBase.toNat = before.length := by omega
  rw [fetch, if_neg hnotEnd, if_pos hinside, hoffset, htext, List.drop_left]

/-- A step whose checks pass is the meaning of the instruction the bytes at `pc` decode to (10_state.md R19). -/
theorem step_eq_exec {s : State} {bytes rest : List Byte} {i : Instr} (hfault : s.fault = none)
    (hlaunch : launchRefusal s = none) (hfetch : fetch s = .ok bytes) (hdecode : decode s.cfg bytes = .ok (i, rest)) :
    step s = exec i s := by
  simp only [step, hfault, hlaunch, hfetch, hdecode]

/-- A step that answers a next state passed every check and is an instruction's meaning. -/
theorem step_next_cases {s t : State} (h : step s = .next t) :
    s.fault = none ∧ launchRefusal s = none ∧
      ∃ bytes i rest, fetch s = .ok bytes ∧ decode s.cfg bytes = .ok (i, rest) ∧ exec i s = .next t := by
  unfold step at h
  split at h
  case h_1 => cases h
  case h_2 hfault =>
  split at h
  case h_1 => cases h
  case h_2 hlaunch =>
  split at h
  case h_1 => cases h
  case h_2 bytes hfetch =>
  split at h
  case h_1 => cases h
  case h_2 i rest hdecode => exact ⟨hfault, hlaunch, bytes, i, rest, hfetch, hdecode, h⟩

/-- The instruction at `pc`, where the bytes there decode. -/
theorem instrAt_of_decode {s : State} {bytes rest : List Byte} {i : Instr} (hfetch : fetch s = .ok bytes)
    (hdecode : decode s.cfg bytes = .ok (i, rest)) : instrAt s = some i := by
  simp only [instrAt, hfetch, hdecode]

end Sys2Proof.Machine

namespace Sys2Proof.Proofs
open Sys2Proof.Machine

/-- Settles O38. -/
theorem stepRunsTheDecodedInstruction : Obligations.StepRunsTheDecodedInstruction := by
  unfold Obligations.StepRunsTheDecodedInstruction
  intro s bytes i rest hfault hlaunch hfetch hdecode _
  exact step_eq_exec hfault hlaunch hfetch hdecode

/-- Settles O39: the fetch answers the encoding and what stands behind it, which decodes back to the instruction. -/
theorem stepRunsTheInstructionInTheText : Obligations.StepRunsTheInstructionInTheText := by
  unfold Obligations.StepRunsTheInstructionInTheText
  intro s i before after hfault hlaunch hwf htext hpc
  have hfetch : fetch s = .ok (encode i ++ after) :=
    fetch_of_text (by rw [htext, List.append_assoc])
      (by rw [List.length_append]; exact Nat.add_pos_left (encode_length_pos i) _) hpc
  exact step_eq_exec hfault (launchRefusal_none_iff.mpr hlaunch) hfetch (decode_encode_append hwf after)

end Sys2Proof.Proofs
end

section
/-! What an instruction that answers a next state did, and from it what every step and every run keep (10_state.md R22, R23,
60_exceptions.md R92 to R101, R108). -/

namespace Sys2Proof.Machine

/-- The state an exception can be raised in, by exception: the condition of its rule, as far as it does not speak of the
operand (60_exceptions.md R92, R93, R95, R96, R98, R101). -/
def RaisableIn (s : State) : Exn → Prop
  | .ud => s.cr0em = true ∨ s.cr4osfxsr = false
  | .nm => s.cr0ts = true ∧ s.cr0em = false
  | .mf => MfReported s
  | .ss => s.cfg.mode = .protectedMode
  | .gp => True
  | .pf c => s.cfg.mode ≠ .realAddress ∧ ∃ p ∈ s.cfg.pageFaults, p.code = c

/-- The checks before the operand raise an exception only in a state its rule names (60_exceptions.md R107). -/
theorem raisableIn_of_preChecks {size : OpSize} {s : State} {e : Exn} (h : preChecks size s = some e) :
    RaisableIn s e := by
  rcases preChecks_cases size s with ⟨hem, hpre⟩ | ⟨-, -, hfxsr, hpre⟩ | ⟨hem, -, hts, hpre⟩ |
    ⟨-, -, -, hpending, hmode, hpre⟩ | ⟨-, -, -, -, hpre⟩ <;> cases hpre.symm.trans h
  · exact .inl hem
  · exact .inr hfxsr
  · exact ⟨hts, hem⟩
  · exact ⟨hpending, hmode⟩

/-- The checked read of a memory operand raises an exception only in a state its rule names (20_memory.md R36). -/
theorem raisableIn_of_operandRead {w n : Nat} {s : State} {seg : Seg} {ea : Dword} {e : Exn}
    (h : operandRead w s seg ea n = .raises e) : RaisableIn s e := by
  rcases operandRead_cases w s seg ea n with ⟨-, hread⟩ | ⟨-, e', hreport, hread⟩ | ⟨-, -, -, e', hpage, hread⟩ |
    ⟨-, -, -, -, hread⟩ <;> rw [hread] at h
  · cases h
  · cases h
    rcases reportFault_some hreport with hrange | halign
    · rcases rangeFault_some hrange with ⟨rfl, -, hmode⟩ | rfl
      · exact hmode
      · exact trivial
    · obtain ⟨rfl, -, -⟩ := alignFault_some halign
      exact trivial
  · cases h
    obtain ⟨hmode, p, hp, rfl⟩ := pageFault_some hpage
    exact ⟨hmode, p, (mem_pageHits.mp hp).1, rfl⟩
  · rcases operandValue_cases w s (linear s seg ea) n with ⟨-, hv⟩ | ⟨-, ⟨v, -, hv⟩ | ⟨-, hv⟩⟩ <;> cases hv.symm.trans h

/-- Reading a source operand raises an exception only in a state its rule names: a register raises none. -/
theorem raisableIn_of_source {w n : Nat} {s : State} {file : RegNum → BitVec w} {lead : List Lead} {src : Src} {e : Exn}
    (h : source w n s file lead src = .raises e) : RaisableIn s e := by
  cases src with
  | reg r => cases h
  | mem32 a => exact raisableIn_of_operandRead h
  | mem16 a => exact raisableIn_of_operandRead h

/-- Every next state of an instruction: it completed with its frame, or it took an exception that its state allows
(10_state.md R23, 60_exceptions.md R108). -/
theorem exec_completed_or_took {i : Instr} {s t : State} (h : exec i s = .next t) :
    Completed i s t ∨ ∃ e, Took e s t ∧ RaisableIn s e := by
  rcases exec_next_cases h with ⟨e, rfl, hraise⟩ | ⟨hsize, -, b, -, rfl⟩ | ⟨hsize, -, b, -, rfl⟩
  · refine .inr ⟨e, raise_took e s, ?_⟩
    rcases hraise with hpre | ⟨-, ⟨-, hsrc⟩ | ⟨-, hsrc⟩⟩
    · exact raisableIn_of_preChecks hpre
    · exact raisableIn_of_source hsrc
    · exact raisableIn_of_source hsrc
  · exact .inl ⟨rfl, by rw [hsize]; exact complete64_frame _ _ _ _⟩
  · exact .inl ⟨rfl, by rw [hsize]; exact complete128_frame _ _ _ _⟩

/-- A completed form keeps all that no form changes, at either operand size. -/
theorem Completed.keepsRest {i : Instr} {s t : State} (h : Completed i s t) : KeepsRest s t := by
  obtain ⟨-, hframe⟩ := h
  cases hsize : i.size <;> rw [hsize] at hframe <;> exact hframe.rest

/-- A completed form records no exception. -/
theorem Completed.fault {i : Instr} {s t : State} (h : Completed i s t) : t.fault = s.fault := by
  obtain ⟨-, hframe⟩ := h
  cases hsize : i.size <;> rw [hsize] at hframe <;> exact hframe.fault

/-! The invariant. -/

/-- The invariant, with its six clauses on the recorded exception read as one. -/
theorem inv_iff {s : State} :
    Inv s ↔ s.mem.wf = true ∧ (s.cfg.mode ≠ .protectedMode → ∀ seg, RealBase (s.seg seg)) ∧
      ∀ r, s.fault = some r → r.pc = s.pc ∧ RaisableIn s r.exn := by
  constructor
  · intro h
    refine ⟨h.mem, h.bases, fun r hr => ⟨h.faultPc r hr, ?_⟩⟩
    cases hexn : r.exn with
    | ud => exact h.faultUd r hr hexn
    | nm => exact h.faultNm r hr hexn
    | mf => exact h.faultMf r hr hexn
    | ss => exact h.faultSs r hr hexn
    | gp => exact trivial
    | pf c => exact h.faultPf r c hr hexn
  · rintro ⟨hmem, hbases, hfault⟩
    have hraisable {r : Raised} {e : Exn} (hr : s.fault = some r) (he : r.exn = e) : RaisableIn s e :=
      he ▸ (hfault r hr).2
    exact {
      mem := hmem
      bases := hbases
      faultPc := fun r hr => (hfault r hr).1
      faultSs := fun _ hr he => hraisable hr he
      faultPf := fun _ _ hr he => hraisable hr he
      faultMf := fun _ hr he => hraisable hr he
      faultUd := fun _ hr he => hraisable hr he
      faultNm := fun _ hr he => hraisable hr he }

/-- Whether an exception can be raised rests on parts of the state that no form changes. -/
theorem KeepsRest.raisableIn_iff {s t : State} (h : KeepsRest s t) (e : Exn) : RaisableIn t e ↔ RaisableIn s e := by
  cases e <;> simp only [RaisableIn, MfReported, h.cfg, h.cr0em, h.cr0ts, h.cr4osfxsr, h.x87pending]

/-- The invariant passes to a state that keeps the rest, if an exception recorded there stands at `pc` and could be
raised. -/
theorem KeepsRest.inv {s t : State} (h : KeepsRest s t) (hs : Inv s)
    (hfault : ∀ r, t.fault = some r → r.pc = t.pc ∧ RaisableIn s r.exn) : Inv t := by
  refine inv_iff.mpr ⟨h.mem ▸ hs.mem, fun hmode seg => ?_, fun r hr => ?_⟩
  · rw [seg_congr h.segs]
    exact hs.bases (h.cfg ▸ hmode) seg
  · obtain ⟨hpc, hraisable⟩ := hfault r hr
    exact ⟨hpc, (h.raisableIn_iff r.exn).mpr hraisable⟩

/-- An instruction run where no exception is recorded keeps the invariant. -/
theorem exec_keeps_inv {i : Instr} {s t : State} (hs : Inv s) (hnone : s.fault = none) (h : exec i s = .next t) : Inv t := by
  rcases exec_completed_or_took h with hdone | ⟨e, htook, hraisable⟩
  · refine hdone.keepsRest.inv hs fun r hr => ?_
    cases (hdone.fault.trans hnone).symm.trans hr
  · refine htook.rest.inv hs fun r hr => ?_
    cases htook.fault.symm.trans hr
    exact ⟨htook.pc.symm, hraisable⟩

/-! Runs. -/

/-- A state keeps its own rest. -/
theorem KeepsRest.refl (s : State) : KeepsRest s s :=
  ⟨rfl, rfl, rfl, rfl, rfl, rfl, rfl, rfl, rfl, fun _ => rfl, rfl, rfl⟩

/-- What two stretches of a run both keep, the whole keeps. -/
theorem KeepsRest.trans {s t u : State} (h : KeepsRest s t) (h' : KeepsRest t u) : KeepsRest s u where
  cfg := h'.cfg.trans h.cfg
  gpr := h'.gpr.trans h.gpr
  cr0em := h'.cr0em.trans h.cr0em
  cr0ts := h'.cr0ts.trans h.cr0ts
  cr4osfxsr := h'.cr4osfxsr.trans h.cr4osfxsr
  x87pending := h'.x87pending.trans h.x87pending
  segs := h'.segs.trans h.segs
  flags := h'.flags.trans h.flags
  mem := h'.mem.trans h.mem
  bytes := fun a => (h'.bytes a).trans (h.bytes a)
  text := h'.text.trans h.text
  textBase := h'.textBase.trans h.textBase

/-- From `s` to `t` nothing changed but what the listed instructions may write: their destinations, and the x87 bookkeeping
if one of them is a 64-bit form (`pc`, the exception record and the draws are left open). -/
structure WritesOnly (is : List Instr) (s t : State) : Prop where
  rest : KeepsRest s t
  mm : ∀ r, (∀ i ∈ is, i.size = .s64 → i.dst ≠ r) → t.getMm r = s.getMm r
  xmm : ∀ r, (∀ i ∈ is, i.size = .s128 → i.dst ≠ r) → t.getXmm r = s.getXmm r
  x87 : (∀ i ∈ is, i.size = .s128) → t.x87 = s.x87

/-- Where no instruction runs, nothing is written. -/
theorem WritesOnly.refl (s : State) : WritesOnly [] s s := ⟨KeepsRest.refl s, fun _ _ => rfl, fun _ _ => rfl, fun _ => rfl⟩

/-- Two stretches of a run write what the instructions of both may write. -/
theorem WritesOnly.trans {is js : List Instr} {s t u : State} (h : WritesOnly is s t) (h' : WritesOnly js t u) :
    WritesOnly (is ++ js) s u where
  rest := h.rest.trans h'.rest
  mm := fun r hr => by
    obtain ⟨his, hjs⟩ := List.forall_mem_append.mp hr
    exact (h'.mm r hjs).trans (h.mm r his)
  xmm := fun r hr => by
    obtain ⟨his, hjs⟩ := List.forall_mem_append.mp hr
    exact (h'.xmm r hjs).trans (h.xmm r his)
  x87 := fun hr => by
    obtain ⟨his, hjs⟩ := List.forall_mem_append.mp hr
    exact (h'.x87 hjs).trans (h.x87 his)

/-- Taking an exception writes nothing that an instruction could. -/
theorem Took.writesOnly {e : Exn} {s t : State} (h : Took e s t) (is : List Instr) : WritesOnly is s t :=
  ⟨h.rest, fun r _ => getMm_congr h.mm r, fun r _ => getXmm_congr h.xmm r, fun _ => h.x87⟩

/-- A completed form writes only what its size and its destination allow (10_state.md R23). -/
theorem Completed.writesOnly {i : Instr} {s t : State} (h : Completed i s t) : WritesOnly [i] s t := by
  obtain ⟨-, hframe⟩ := h
  cases hsize : i.size with
  | s64 =>
    rw [hsize] at hframe
    exact {
      rest := hframe.rest
      mm := fun r hr => hframe.otherMm r (hr i (List.mem_singleton_self i) hsize).symm
      xmm := fun r _ => getXmm_congr hframe.xmm r
      x87 := fun h128 => nomatch hsize.symm.trans (h128 i (List.mem_singleton_self i)) }
  | s128 =>
    rw [hsize] at hframe
    exact {
      rest := hframe.rest
      mm := fun r _ => getMm_congr hframe.mm r
      xmm := fun r hr => hframe.otherXmm r (hr i (List.mem_singleton_self i) hsize).symm
      x87 := fun _ => hframe.x87 }

/-- A step executes the instruction at `pc` and writes only what that one may write. -/
theorem step_writesOnly {s t : State} (h : step s = .next t) : ∃ i, instrAt s = some i ∧ WritesOnly [i] s t := by
  obtain ⟨-, -, bytes, i, rest, hfetch, hdecode, hexec⟩ := step_next_cases h
  refine ⟨i, instrAt_of_decode hfetch hdecode, ?_⟩
  rcases exec_completed_or_took hexec with hdone | ⟨e, htook, -⟩
  · exact hdone.writesOnly
  · exact htook.writesOnly [i]

/-- A run of at least one step that answers a next state is a step that does and the run of the others. -/
theorem run_succ_next {M : Host.Core} {k : Nat} {s u : M.State} (h : M.run (k + 1) s = .next u) :
    ∃ t, M.step s = .next t ∧ M.run k t = .next u := by
  unfold Host.Core.run at h
  split at h
  case h_1 t hstep => exact ⟨t, hstep, h⟩
  case h_2 => cases h
  case h_3 => cases h

/-- What a run executes is what its first step executes, then what the run of the others does. -/
theorem executed_succ (k : Nat) {s t : State} {i : Instr} (hstep : step s = .next t) (hi : instrAt s = some i) :
    executed (k + 1) s = [i] ++ executed k t := by
  simp only [executed, hstep, hi, Option.toList_some]

/-- A run writes only what the instructions it executes may write (10_state.md R22, R23). -/
theorem run_writesOnly {k : Nat} {s t : State} (h : core.run k s = .next t) : WritesOnly (executed k s) s t := by
  induction k generalizing s with
  | zero => cases h; exact WritesOnly.refl _
  | succ k ih =>
    obtain ⟨u, hstep, hrun⟩ := run_succ_next (M := core) h
    obtain ⟨i, hi, hfirst⟩ := step_writesOnly hstep
    rw [executed_succ k hstep hi]
    exact hfirst.trans (ih hrun)

end Sys2Proof.Machine

namespace Sys2Proof.Proofs
open Sys2Proof.Machine

/-- Settles O43: a step is an instruction's meaning in a state with no exception recorded, and what it may record there its
state allows. -/
theorem stepKeepsTheInvariant : Obligations.StepKeepsTheInvariant := by
  unfold Obligations.StepKeepsTheInvariant
  intro s t hs hstep
  obtain ⟨hnone, -, _, i, _, -, -, hexec⟩ := step_next_cases hstep
  exact exec_keeps_inv hs hnone hexec

/-- Settles O46, by induction over the run. -/
theorem runsWriteOnlyTheirDestinations : Obligations.RunsWriteOnlyTheirDestinations := by
  unfold Obligations.RunsWriteOnlyTheirDestinations
  intro k s t hrun
  obtain ⟨hrest, hmm, hxmm, hx87⟩ := run_writesOnly hrun
  exact ⟨hrest, hmm, hxmm, hx87⟩

/-- Settles O21. -/
theorem everyNextStateIsCompletionOrException : Obligations.EveryNextStateIsCompletionOrException := by
  unfold Obligations.EveryNextStateIsCompletionOrException
  intro i s t h
  exact (exec_completed_or_took h).imp id fun ⟨e, htook, _⟩ => ⟨e, htook⟩

end Sys2Proof.Proofs
end

section
/-! The flags, which no form reads or writes (10_state.md R20): every part of an instruction's meaning against the same state
with other flags. -/

namespace Sys2Proof.Machine

/-- The bytes read are the same in states whose memory bytes are. -/
theorem readLE_congr {s t : State} (h : ∀ a, t.byteAt a = s.byteAt a) (w : Nat) (as : List Nat) :
    t.readLE w as = s.readLE w as := by
  induction as with
  | nil => rfl
  | cons a as ih => simp only [State.readLE, h, ih]

/-- `MemRead` reads no flag. -/
@[simp] theorem memRead_withFlags (w f : Nat) (s : State) (lin : Dword) (n : Nat) :
    memRead w (withFlags f s) lin n = memRead w s lin n :=
  readLE_congr (s := s) (t := withFlags f s) (fun _ => rfl) w (operandAddrs lin n)

/-- The checked read of a memory operand reads no flag: its checks read other fields. -/
theorem operandRead_withFlags (w f : Nat) (s : State) (seg : Seg) (ea : Dword) (n : Nat) :
    operandRead w (withFlags f s) seg ea n = operandRead w s seg ea n := by
  have hvalue (lin : Dword) : operandValue w (withFlags f s) lin n = operandValue w s lin n := by
    simp only [operandValue, memRead_withFlags]; rfl
  have hlin : linear (withFlags f s) seg ea = linear s seg ea := by cases seg <;> rfl
  unfold operandRead
  rw [hlin, hvalue]
  rfl

/-- No source operand's value depends on the flags. -/
theorem source_withFlags {w n : Nat} (f : Nat) (s : State) (file : RegNum → BitVec w) (lead : List Lead) (src : Src) :
    source w n (withFlags f s) file lead src = source w n s file lead src := by
  cases src with
  | reg r => rfl
  | mem32 a => exact operandRead_withFlags w f s _ _ n
  | mem16 a => exact operandRead_withFlags w f s _ _ n

/-- The common execution sequence passes on a change of the state that completing and raising pass on. -/
theorem runForm_mapNext {w : Nat} {pre : Option Exn} {src : Operand w} {done done' : BitVec w → State → State} {s : State}
    {g : State → State} (hdone : ∀ b, done' b (g s) = g (done b s)) (hraise : ∀ e, raise e (g s) = g (raise e s)) :
    runForm pre src done' (g s) = mapNext g (runForm pre src done s) := by
  cases pre with
  | some e => exact congrArg Host.Outcome.next (hraise e)
  | none =>
    cases src with
    | value b => exact congrArg Host.Outcome.next (hdone b)
    | raises e => exact congrArg Host.Outcome.next (hraise e)
    | stuck _ => rfl
    | refused _ => rfl

/-- The checks before the operand read no flag. -/
theorem preChecks_withFlags (size : OpSize) (f : Nat) (s : State) : preChecks size (withFlags f s) = preChecks size s := rfl

/-- Completing a 64-bit form leaves the flags as they are. -/
theorem complete64_withFlags (d : RegNum) (r : MmWord) (len f : Nat) (s : State) :
    complete64 d r len (withFlags f s) = withFlags f (complete64 d r len s) := rfl

/-- Completing a 128-bit form leaves the flags as they are. -/
theorem complete128_withFlags (d : RegNum) (r : XmmWord) (len f : Nat) (s : State) :
    complete128 d r len (withFlags f s) = withFlags f (complete128 d r len s) := rfl

/-- Raising an exception leaves the flags as they are. -/
theorem raise_withFlags (e : Exn) (f : Nat) (s : State) : raise e (withFlags f s) = withFlags f (raise e s) := rfl

/-- No 64-bit form reads or writes a flag. -/
theorem run64_withFlags (N : Nat) (lead : List Lead) (dst : RegNum) (src : Src) (f : Nat) (s : State) :
    run64 N lead dst src (withFlags f s) = mapNext (withFlags f) (run64 N lead dst src s) := by
  have hsrc : source64 (withFlags f s) lead src = source64 s lead src := source_withFlags f s s.getMm lead src
  rw [run64, run64, preChecks_withFlags, hsrc]
  exact runForm_mapNext (fun _ => complete64_withFlags _ _ _ _ _) fun e => raise_withFlags e f s

/-- No 128-bit form reads or writes a flag. -/
theorem run128_withFlags (N : Nat) (lead : List Lead) (dst : RegNum) (src : Src) (f : Nat) (s : State) :
    run128 N lead dst src (withFlags f s) = mapNext (withFlags f) (run128 N lead dst src s) := by
  have hsrc : source128 (withFlags f s) lead src = source128 s lead src := source_withFlags f s s.getXmm lead src
  rw [run128, run128, preChecks_withFlags, hsrc]
  exact runForm_mapNext (fun _ => complete128_withFlags _ _ _ _ _) fun e => raise_withFlags e f s

end Sys2Proof.Machine

namespace Sys2Proof.Proofs
open Sys2Proof.Machine

/-- Settles O24, for the 64-bit and the 128-bit forms in turn. -/
theorem flagsAreNeitherReadNorWritten : Obligations.FlagsAreNeitherReadNorWritten := by
  unfold Obligations.FlagsAreNeitherReadNorWritten
  intro i s f
  cases hsize : i.size with
  | s64 => rw [exec_of_s64 hsize, exec_of_s64 hsize, run64_withFlags]
  | s128 => rw [exec_of_s128 hsize, exec_of_s128 hsize, run128_withFlags]

end Sys2Proof.Proofs
end

section
/-! A form with a memory operand (20_memory.md R36 to R49): what the checked read answers at the first step that does not
pass, and what the form then does. -/

namespace Sys2Proof.Machine

/-- An operand is not empty. -/
theorem operandBytes_pos (size : OpSize) : 0 < operandBytes size := by cases size <;> decide

/-! The steps of the checked read. -/

/-- A segment the premise `PlainSegments` excludes is refused before any check (20_memory.md R37). -/
theorem operandRead_of_nonPlain {w : Nat} {s : State} {seg : Seg} {ea : Dword} {n : Nat} (hseg : seg ∈ s.cfg.nonPlain) :
    operandRead w s seg ea n = .refused (.segmentNotPlain seg) := if_pos hseg

/-- What steps 1 and 2 report is raised (20_memory.md R36). -/
theorem operandRead_of_report {w : Nat} {s : State} {seg : Seg} {ea : Dword} {n : Nat} {e : Exn}
    (hplain : seg ∉ s.cfg.nonPlain) (h : reportFault s.draws (rangeFault s seg ea n) (alignFault s seg ea n) = some e) :
    operandRead w s seg ea n = .raises e := by
  rw [operandRead, if_neg hplain, h]

/-- A page fault is raised when steps 1 and 2 pass (20_memory.md R36, R40). -/
theorem operandRead_of_pageFault {w : Nat} {s : State} {seg : Seg} {ea : Dword} {n : Nat} {e : Exn} (hn : 0 < n)
    (hplain : seg ∉ s.cfg.nonPlain) (hrange : InRange s seg ea n) (halign : Aligned s seg ea n)
    (h : pageFault s (linear s seg ea) n = some e) : operandRead w s seg ea n = .raises e := by
  simp only [operandRead, hplain, if_false, (rangeFault_none_iff hn).mpr hrange, alignFault_none_iff.mpr halign,
    reportFault, h]

/-- An operand that passes every check is left to step 4 (20_memory.md R36). -/
theorem operandRead_of_passes {w : Nat} {s : State} {seg : Seg} {ea : Dword} {n : Nat} (hn : 0 < n)
    (hplain : seg ∉ s.cfg.nonPlain) (hrange : InRange s seg ea n) (halign : Aligned s seg ea n)
    (hpage : NoPageFault s seg ea n) : operandRead w s seg ea n = operandValue w s (linear s seg ea) n :=
  operandRead_of_checks hplain ((rangeFault_none_iff hn).mpr hrange) (alignFault_none_iff.mpr halign)
    (pageFault_none_iff.mpr hpage)

/-- Nothing is reported exactly when both steps pass. -/
theorem reportFault_none_iff {draw : Nat} {range align : Option Exn} :
    reportFault draw range align = none ↔ range = none ∧ align = none := by
  cases range <;> cases align <;> simp [reportFault]

/-- A read of several bytes finds nothing exactly when one of them is not held, whatever the width (20_memory.md R49). -/
theorem readLE_eq_none_iff {s : State} {w : Nat} {as : List Nat} :
    s.readLE w as = none ↔ ∃ a ∈ as, s.byteAt a = none := by
  induction as with
  | nil => simp [State.readLE]
  | cons a as ih =>
    rw [List.exists_mem_cons_iff, ← ih, State.readLE]
    cases s.byteAt a <;> cases s.readLE w as <;> simp

/-- An operand that touches a region whose read has side effects is refused (20_memory.md R46). -/
theorem operandValue_of_device {w : Nat} {s : State} {lin : Dword} {n : Nat} {r : Region} (hr : r ∈ s.cfg.devices)
    (h : Touches lin n r) : operandValue w s lin n = .refused (.deviceOperand lin) := by
  rcases operandValue_cases w s lin n with ⟨-, hv⟩ | ⟨hnone, -⟩
  · exact hv
  · obtain ⟨a, ha, hra⟩ := touches_iff.mp h
    exact absurd hra (by simp [hnone a ha r hr])

/-- An operand in ordinary memory with a byte the launch does not hold is stuck (20_memory.md R49). -/
theorem operandValue_of_absent {w : Nat} {s : State} {lin : Dword} {n : Nat}
    (hordinary : ∀ r ∈ s.cfg.devices, ¬ Touches lin n r) (h : ∃ k < n, s.byteAt (byteAddr lin k) = none) :
    operandValue w s lin n = .stuck (.noMemory lin) := by
  obtain ⟨k, hk, hbyte⟩ := h
  have hread : memRead w s lin n = none := readLE_eq_none_iff.mpr ⟨_, mem_operandAddrs.mpr ⟨k, hk, rfl⟩, hbyte⟩
  rcases operandValue_cases w s lin n with ⟨⟨a, ha, r, hr, hra⟩, -⟩ | ⟨-, ⟨v, hv, -⟩ | ⟨-, hv⟩⟩
  · exact absurd (touches_iff.mpr ⟨a, ha, hra⟩) (hordinary r hr)
  · cases hread.symm.trans hv
  · exact hv

/-! The form's answer. -/

/-- A form with a memory operand whose checks before the operand pass does, at either operand size, what the common
execution sequence does with the checked read (40_pcmpgt.md R71). -/
theorem exec_of_operand {i : Instr} {s : State} {seg : Seg} {ea : Dword} {o : Host.Outcome State Fault Refusal}
    (hready : Ready i.size s) (hmem : memOperand s i.lead i.src = some (seg, ea))
    (h : ∀ w done, runForm none (operandRead w s seg ea (operandBytes i.size)) done s = o) : exec i s = o := by
  cases hsize : i.size with
  | s64 =>
    rw [hsize] at hready h
    rw [exec_of_s64 hsize, run64, preChecks_none_iff.mpr hready, source64, source_of_memOperand hmem]
    exact h 64 _
  | s128 =>
    rw [hsize] at hready h
    rw [exec_of_s128 hsize, run128, preChecks_none_iff.mpr hready, source128, source_of_memOperand hmem]
    exact h 128 _

/-- A form whose operand is refused is refused. -/
theorem exec_of_refused_operand {i : Instr} {s : State} {seg : Seg} {ea : Dword} {r : Refusal} (hready : Ready i.size s)
    (hmem : memOperand s i.lead i.src = some (seg, ea))
    (h : ∀ w, operandRead w s seg ea (operandBytes i.size) = .refused r) : exec i s = .refused r :=
  exec_of_operand hready hmem fun w done => by rw [h w, runForm]

/-- A form whose operand is stuck has no step. -/
theorem exec_of_stuck_operand {i : Instr} {s : State} {seg : Seg} {ea : Dword} {f : Fault} (hready : Ready i.size s)
    (hmem : memOperand s i.lead i.src = some (seg, ea))
    (h : ∀ w, operandRead w s seg ea (operandBytes i.size) = .stuck f) : exec i s = .fault f :=
  exec_of_operand hready hmem fun w done => by rw [h w, runForm]

/-- An operand that is out of range or misaligned raises the exception of a step that does not pass: #SS for the range in
SS in Protected mode, else #GP (20_memory.md R36 to R39). -/
theorem raises_of_not_inRange_or_not_aligned {i : Instr} {s : State} {seg : Seg} {ea : Dword}
    (hmem : memOperand s i.lead i.src = some (seg, ea)) (hready : Ready i.size s) (hplain : seg ∉ s.cfg.nonPlain)
    (hcheck : ¬ (InRange s seg ea (operandBytes i.size) ∧ Aligned s seg ea (operandBytes i.size))) :
    (¬ InRange s seg ea (operandBytes i.size) ∧
      Raises i s (if s.cfg.mode = .protectedMode ∧ seg = .ss then .ss else .gp)) ∨
    (¬ Aligned s seg ea (operandBytes i.size) ∧ Raises i s .gp) := by
  have hpos := operandBytes_pos i.size
  have hreported : reportFault s.draws (rangeFault s seg ea (operandBytes i.size))
      (alignFault s seg ea (operandBytes i.size)) ≠ none := by
    rwa [Ne, reportFault_none_iff, rangeFault_none_iff hpos, alignFault_none_iff]
  obtain ⟨e, he⟩ := Option.ne_none_iff_exists'.mp hreported
  have hraises : Raises i s e := raises_of_operand hready hmem fun w => operandRead_of_report hplain he
  rcases reportFault_some he with hrange | halign
  · have hout : ¬ InRange s seg ea (operandBytes i.size) := by
      rw [← rangeFault_none_iff hpos, hrange]; exact Option.some_ne_none e
    cases hrange.symm.trans (rangeFault_of_out hpos hout)
    exact .inl ⟨hout, hraises⟩
  · have hmisaligned : ¬ Aligned s seg ea (operandBytes i.size) := by
      rw [← alignFault_none_iff, halign]; exact Option.some_ne_none e
    cases halign.symm.trans (alignFault_of_not hmisaligned)
    exact .inr ⟨hmisaligned, hraises⟩

end Sys2Proof.Machine

namespace Sys2Proof.Proofs
open Sys2Proof.Machine

/-- Settles O30: whichever of the range and the alignment is reported, outside SS it is #GP. -/
theorem protectedModeLimitRaisesGpOrSs : Obligations.ProtectedModeLimitRaisesGpOrSs := by
  unfold Obligations.ProtectedModeLimitRaisesGpOrSs
  intro i s seg ea hmem hready hplain hmode hout
  have hraises := raises_of_not_inRange_or_not_aligned hmem hready hplain fun h => hout h.1
  simp only [hmode, true_and] at hraises
  refine ⟨fun hseg => ?_, fun hseg haligned => ?_, fun hseg _ => ?_, rfl, rfl⟩
  · rw [if_neg hseg] at hraises
    exact hraises.elim And.right And.right
  · rw [if_pos hseg] at hraises
    exact hraises.elim And.right fun h => absurd haligned h.1
  · rw [if_pos hseg] at hraises
    exact hraises.imp And.right And.right

/-- Settles O31: outside Protected mode the range, too, is reported as #GP in every segment. -/
theorem realAddressRangeRaisesGp : Obligations.RealAddressRangeRaisesGp := by
  unfold Obligations.RealAddressRangeRaisesGp
  intro i s seg ea hmem hready hplain hmode hout
  have hraises := raises_of_not_inRange_or_not_aligned hmem hready hplain fun h => hout h.1
  rw [if_neg fun h => hmode h.1] at hraises
  exact hraises.elim And.right And.right

/-- Settles O32: a report other than #GP is that of the range, in SS in Protected mode. -/
theorem misalignedM128RaisesGp : Obligations.MisalignedM128RaisesGp := by
  unfold Obligations.MisalignedM128RaisesGp
  intro i s seg ea hsize hmem hready hplain hmisaligned
  have hraises := raises_of_not_inRange_or_not_aligned hmem (hsize ▸ hready) hplain
    (by rw [hsize]; exact fun h => hmisaligned h.2)
  rw [hsize] at hraises
  rcases hraises with ⟨hout, hrange⟩ | ⟨-, hgp⟩
  · by_cases hss : s.cfg.mode = .protectedMode ∧ seg = .ss
    · exact .inr ⟨hss.2, hss.1, hout, by rwa [if_pos hss] at hrange⟩
    · exact .inl (by rwa [if_neg hss] at hrange)
  · exact .inl hgp

/-- Settles O33: a verdict that is not `Ok` has the code of a row that applies. -/
theorem touchedPageFaultIsRaisedWithItsCode : Obligations.TouchedPageFaultIsRaisedWithItsCode := by
  unfold Obligations.TouchedPageFaultIsRaisedWithItsCode
  intro i s seg ea hmem hready hplain _ hrange halign hpage
  obtain ⟨e, he⟩ := Option.ne_none_iff_exists'.mp (pageFault_none_iff.not.mpr hpage)
  obtain ⟨-, p, hp, rfl⟩ := pageFault_some he
  obtain ⟨hrow, hfaultsOn⟩ := mem_pageHits.mp hp
  have hraises : Raises i s (.pf p.code) := raises_of_operand hready hmem fun w =>
    operandRead_of_pageFault (operandBytes_pos i.size) hplain hrange halign he
  exact ⟨p, hrow, hfaultsOn, hraises, rfl⟩

/-- Settles O36. -/
theorem readOfAbsentMemoryIsStuck : Obligations.ReadOfAbsentMemoryIsStuck := by
  unfold Obligations.ReadOfAbsentMemoryIsStuck
  intro i s seg ea hmem hready hrange halign hpage ⟨hplain, hordinary⟩ habsent
  refine exec_of_stuck_operand hready hmem fun w => ?_
  rw [operandRead_of_passes (operandBytes_pos i.size) hplain hrange halign hpage]
  exact operandValue_of_absent hordinary habsent

/-- Settles O37, for the excluded segment and the excluded region in turn. -/
theorem operandOutsideThePremisesIsRefused : Obligations.OperandOutsideThePremisesIsRefused := by
  unfold Obligations.OperandOutsideThePremisesIsRefused
  intro i s seg ea hmem hready
  constructor
  · intro hseg
    exact exec_of_refused_operand hready hmem fun w => operandRead_of_nonPlain hseg
  · rintro hplain hrange halign hpage ⟨r, hr, htouches⟩
    refine exec_of_refused_operand hready hmem fun w => ?_
    rw [operandRead_of_passes (operandBytes_pos i.size) hplain hrange halign hpage]
    exact operandValue_of_device hr htouches

end Sys2Proof.Proofs
end

section
/-! The decoder's answers taken apart (30_encoding.md R50 to R61): what each part of it reads is the encoding of what it
answers, and the part behind the second opcode byte refuses nothing but a string that is too short. -/

namespace Sys2Proof

/-- The value of `mod` that the decoder's tests leave for the last branch of a memory operand (30_encoding.md R53). -/
theorem mod_eq_two {mod : BitVec 2} (h0 : mod ≠ 0#2) (h1 : mod ≠ 1#2) (h3 : mod ≠ 3#2) : mod = 2#2 := by
  revert mod; decide

/-- From bytes `bs` behind a ModRM byte with fields `mod` and `rm` the operand `src` is read and `rest` is left: whatever
the destination, that ModRM byte and those bytes are the operand's encoding and the rest. -/
def ReadsEncoding (mod : BitVec 2) (rm : RegNum) (bs : List Byte) (src : Src) (rest : List Byte) : Prop :=
  ∀ dst, packFields mod dst rm :: bs = encodeSrc dst src ++ rest

/-- What the SIB byte's operand reads as (30_encoding.md R54). -/
theorem decodeSib_ok {mod : BitVec 2} {sib : Byte} {bs rest : List Byte} {src : Src} (hmod : mod ≠ 3#2)
    (h : decodeSib mod sib bs = .ok (src, rest)) :
    ∃ a, src = .mem32 a ∧ addr32Ok a = true ∧ ReadsEncoding mod 4#3 (sib :: bs) src rest := by
  have hsib : packFields (fieldHi sib) (fieldMid sib) (fieldLo sib) = sib := packFields_fields sib
  rw [decodeSib.eq_def] at h
  split_ifs at h with h0 hbase h1
  · obtain ⟨d, rfl, rfl⟩ := take32_ok h
    exact ⟨_, rfl, rfl, fun dst => by simp [encodeSrc, h0, ← hbase, hsib]⟩
  · cases h
    exact ⟨_, rfl, by simpa [addr32Ok] using hbase, fun dst => by simp [encodeSrc, h0, hsib]⟩
  · obtain ⟨d, rfl, rfl⟩ := take8_ok h
    exact ⟨_, rfl, rfl, fun dst => by simp [encodeSrc, h1, hsib]⟩
  · obtain ⟨d, rfl, rfl⟩ := take32_ok h
    exact ⟨_, rfl, rfl, fun dst => by simp [encodeSrc, mod_eq_two h0 h1 hmod, hsib]⟩

/-- What a memory operand with 32-bit addressing reads as (30_encoding.md R54). -/
theorem decodeMem32_ok {mod : BitVec 2} {rm : RegNum} {bs rest : List Byte} {src : Src} (hmod : mod ≠ 3#2)
    (h : decodeMem32 mod rm bs = .ok (src, rest)) :
    ∃ a, src = .mem32 a ∧ addr32Ok a = true ∧ ReadsEncoding mod rm bs src rest := by
  rw [decodeMem32.eq_def] at h
  split_ifs at h with hrm h0 hrm5 h1
  · cases bs with
    | nil => cases h
    | cons sib bs => exact hrm ▸ decodeSib_ok hmod h
  · obtain ⟨d, rfl, rfl⟩ := take32_ok h
    exact ⟨_, rfl, rfl, fun dst => by simp [encodeSrc, h0, hrm5]⟩
  · cases h
    exact ⟨_, rfl, by simp [addr32Ok, hrm, hrm5], fun dst => by simp [encodeSrc, h0]⟩
  · obtain ⟨d, rfl, rfl⟩ := take8_ok h
    exact ⟨_, rfl, by simpa [addr32Ok] using hrm, fun dst => by simp [encodeSrc, h1]⟩
  · obtain ⟨d, rfl, rfl⟩ := take32_ok h
    exact ⟨_, rfl, by simpa [addr32Ok] using hrm, fun dst => by simp [encodeSrc, mod_eq_two h0 h1 hmod]⟩

/-- What a memory operand with 16-bit addressing reads as (30_encoding.md R56). -/
theorem decodeMem16_ok {mod : BitVec 2} {rm : RegNum} {bs rest : List Byte} {src : Src} (hmod : mod ≠ 3#2)
    (h : decodeMem16 mod rm bs = .ok (src, rest)) :
    ∃ a, src = .mem16 a ∧ addr16Ok a = true ∧ ReadsEncoding mod rm bs src rest := by
  rw [decodeMem16.eq_def] at h
  split_ifs at h with h0 hrm h1
  · obtain ⟨d, rfl, rfl⟩ := take16_ok h
    exact ⟨_, rfl, rfl, fun dst => by simp [encodeSrc, h0, hrm]⟩
  · cases h
    exact ⟨_, rfl, by simpa [addr16Ok] using hrm, fun dst => by simp [encodeSrc, h0]⟩
  · obtain ⟨d, rfl, rfl⟩ := take8_ok h
    exact ⟨_, rfl, rfl, fun dst => by simp [encodeSrc, h1]⟩
  · obtain ⟨d, rfl, rfl⟩ := take16_ok h
    exact ⟨_, rfl, rfl, fun dst => by simp [encodeSrc, mod_eq_two h0 h1 hmod]⟩

/-- What a source operand reads as: a register exactly when `mod` is 11, else a memory operand of the address size
(30_encoding.md R53, R61). -/
theorem decodeSrc_ok {size : AddrSize} {mod : BitVec 2} {rm : RegNum} {bs rest : List Byte} {src : Src}
    (h : decodeSrc size mod rm bs = .ok (src, rest)) :
    ReadsEncoding mod rm bs src rest ∧
      ((mod = 3#2 ∧ src = .reg rm) ∨
       (mod ≠ 3#2 ∧ size = .a32 ∧ ∃ a, src = .mem32 a ∧ addr32Ok a = true) ∨
       (mod ≠ 3#2 ∧ size = .a16 ∧ ∃ a, src = .mem16 a ∧ addr16Ok a = true)) := by
  rw [decodeSrc.eq_def] at h
  split_ifs at h with hmod
  · cases h
    exact ⟨fun dst => by simp [encodeSrc, hmod], .inl ⟨hmod, rfl⟩⟩
  · cases size with
    | a16 =>
      obtain ⟨a, hsrc, hok, hbytes⟩ := decodeMem16_ok hmod h
      exact ⟨hbytes, .inr (.inr ⟨hmod, rfl, a, hsrc, hok⟩)⟩
    | a32 =>
      obtain ⟨a, hsrc, hok, hbytes⟩ := decodeMem32_ok hmod h
      exact ⟨hbytes, .inr (.inl ⟨hmod, rfl, a, hsrc, hok⟩)⟩

/-- A source operand that was read is a register exactly when `mod` is 11 (30_encoding.md R53). -/
theorem decodeSrc_ok_reg {size : AddrSize} {mod : BitVec 2} {rm : RegNum} {bs rest : List Byte} {src : Src}
    (h : decodeSrc size mod rm bs = .ok (src, rest)) :
    (mod = 3#2 → src = .reg rm) ∧ (mod ≠ 3#2 → ∀ r, src ≠ .reg r) := by
  obtain ⟨-, ⟨hmod, rfl⟩ | ⟨hmod, -, a, rfl, -⟩ | ⟨hmod, -, a, rfl, -⟩⟩ := decodeSrc_ok h
  · exact ⟨fun _ => rfl, fun hne => absurd hmod hne⟩
  · exact ⟨fun heq => absurd heq hmod, fun _ _ => Src.noConfusion⟩
  · exact ⟨fun heq => absurd heq hmod, fun _ _ => Src.noConfusion⟩

/-- A source operand that was read belongs to the instruction's address size and has one of its shapes. -/
theorem srcOk_of_decodeSrc {c : Config} {lead : List Lead} {mod : BitVec 2} {rm : RegNum} {bs rest : List Byte} {src : Src}
    (h : decodeSrc (addrSizeFor c lead) mod rm bs = .ok (src, rest)) : srcOk c lead src = true := by
  obtain ⟨-, ⟨-, rfl⟩ | ⟨-, hsize, a, rfl, hok⟩ | ⟨-, hsize, a, rfl, hok⟩⟩ := decodeSrc_ok h
  · rfl
  · simp [srcOk, hsize, hok]
  · simp [srcOk, hsize, hok]

/-- What the bytes from the second opcode byte on read as: that byte names an element width, the ModRM byte's fields lead to
the source operand, and the instruction is the form the leading bytes select (30_encoding.md R51, R52, R53). -/
theorem decodeOpcode_ok {c : Config} {lead : List Lead} {bs rest : List Byte} {i : Instr}
    (h : decodeOpcode c lead bs = .ok (i, rest)) :
    ∃ width modrm tail src, bs = opcodeByte width :: modrm :: tail ∧
      decodeSrc (addrSizeFor c lead) (fieldHi modrm) (fieldLo modrm) tail = .ok (src, rest) ∧
      i = Instr.form (opSizeFor c lead) width lead (fieldMid modrm) src := by
  match bs, h with
  | op :: bs, h =>
    rw [decodeOpcode] at h
    split at h
    case h_1 => cases h
    case h_2 width hwidth =>
    match bs, h with
    | modrm :: tail, h =>
      dsimp only at h
      split at h
      case h_1 => cases h
      case h_2 src rest' hsrc =>
      cases h
      exact ⟨width, modrm, tail, src, by rw [opcodeByte_of_widthOf hwidth], hsrc, rfl⟩

/-- What a byte string reads as: leading bytes of which no kind is repeated, `0F`, and what stands from the second opcode
byte on (30_encoding.md R60). -/
theorem decode_ok {c : Config} {bytes rest : List Byte} {i : Instr} (h : decode c bytes = .ok (i, rest)) :
    ∃ lead bs, bytes = lead.map leadByte ++ 0x0F#8 :: bs ∧ leadsOk lead = true ∧
      decodeOpcode c lead bs = .ok (i, rest) := by
  rw [decode] at h
  split at h
  case h_1 => cases h
  case h_2 hleads =>
  split at h
  case h_1 => cases h
  case h_2 b bs hbytes =>
  split at h
  case isFalse => cases h
  case isTrue hb =>
  subst hb
  exact ⟨(takeLeads bytes).1, bs, by rw [← hbytes, takeLeads_bytes], (leadsReject_none _).mp hleads, h⟩

/-- Behind admitted leading bytes and `0F`, the decoder reads what stands from the second opcode byte on
(30_encoding.md R60). -/
theorem decode_of_leadsOk {lead : List Lead} (h : leadsOk lead = true) (c : Config) (bs : List Byte) :
    decode c (lead.map leadByte ++ 0x0F#8 :: bs) = decodeOpcode c lead bs := by
  simp [decode, takeLeads_append lead 0x0F#8 bs rfl, (leadsReject_none lead).mpr h]

/-- What a well-formed form meets, in the parts it is built from (30_encoding.md R52, R58, R59). -/
theorem wellFormed_form {c : Config} {size : OpSize} {width : Width} {lead : List Lead} {dst : RegNum} {src : Src} :
    WellFormed c (Instr.form size width lead dst src) ↔
      leadsOk lead = true ∧ opSizeFor c lead = size ∧ srcOk c lead src = true := by
  rw [wellFormed_iff, form_lead, form_size, form_src]

/-- The bytes of a form, in the parts it is built from: the operand size is none of them (30_encoding.md R60). -/
theorem encode_form (size : OpSize) (width : Width) (lead : List Lead) (dst : RegNum) (src : Src) :
    encode (Instr.form size width lead dst src) =
      lead.map leadByte ++ 0x0F#8 :: opcodeByte width :: encodeSrc dst src := by
  rw [encode, form_lead, form_width, form_dst, form_src]

/-- Whatever the decoder reads is well-formed, and the bytes it took are its encoding (30_encoding.md R60, R61). -/
theorem wellFormed_and_encode_of_decode {c : Config} {bytes rest : List Byte} {i : Instr}
    (h : decode c bytes = .ok (i, rest)) : WellFormed c i ∧ bytes = encode i ++ rest := by
  obtain ⟨lead, bs, rfl, hlead, hop⟩ := decode_ok h
  obtain ⟨width, modrm, tail, src, rfl, hsrc, rfl⟩ := decodeOpcode_ok hop
  refine ⟨wellFormed_form.mpr ⟨hlead, rfl, srcOk_of_decodeSrc hsrc⟩, ?_⟩
  have hread := (decodeSrc_ok hsrc).1 (fieldMid modrm)
  rw [packFields_fields] at hread
  rw [encode_form, hread]
  simp

end Sys2Proof

namespace Sys2Proof.Proofs
open Sys2Proof.Machine

/-- Settles O1. -/
theorem decodeEncodeRoundTrip : Obligations.DecodeEncodeRoundTrip := by
  unfold Obligations.DecodeEncodeRoundTrip
  intro c i rest hwf
  exact decode_encode_append hwf rest

/-- Settles O2, part by part of the decoder. -/
theorem decodedBytesAreTheEncoding : Obligations.DecodedBytesAreTheEncoding := by
  unfold Obligations.DecodedBytesAreTheEncoding
  intro c bytes i rest hdecode
  exact wellFormed_and_encode_of_decode hdecode

end Sys2Proof.Proofs
end

section
/-! The length of an encoding (30_encoding.md R60). -/

namespace Sys2Proof

/-- The leading bytes are the `66` bytes, the `67` bytes and the overrides (30_encoding.md R58). -/
theorem lead_length (lead : List Lead) :
    lead.length = lead.count .opSize + lead.count .addrSize + lead.countP isOverride := by
  induction lead with
  | nil => rfl
  | cons l lead ih =>
    cases l <;> simp [List.countP_cons, isOverride, ih] <;> omega

/-- At most one leading byte of each kind stands before `0F` (30_encoding.md R58, R59). -/
theorem leadsOk_iff {lead : List Lead} :
    leadsOk lead = true ↔ lead.count .opSize ≤ 1 ∧ lead.count .addrSize ≤ 1 ∧ lead.countP isOverride ≤ 1 := by
  simp [leadsOk, and_assoc]

/-- No more than three leading bytes stand before `0F`. -/
theorem lead_length_le {lead : List Lead} (h : leadsOk lead = true) : lead.length ≤ 3 := by
  obtain ⟨h66, h67, hseg⟩ := leadsOk_iff.mp h
  have := lead_length lead
  omega

/-- The ModRM byte, the SIB byte and the displacement: one byte and `S + D` (30_encoding.md R60). -/
theorem encodeSrc_length (dst : RegNum) (src : Src) : (encodeSrc dst src).length = 1 + srcTail src := by
  unfold encodeSrc srcTail
  split <;> simp [le16, le32]

/-- An encoding has `P + 2 + 1 + S + D` bytes (30_encoding.md R60). -/
theorem encode_length (i : Instr) : (encode i).length = lengthOf i.lead i.src := by
  simp only [encode, List.length_append, List.length_map, List.length_cons, encodeSrc_length, lengthOf]
  omega

/-- At most a SIB byte and four bytes of displacement follow the ModRM byte (30_encoding.md R54, R56). -/
theorem srcTail_le (src : Src) : srcTail src ≤ 5 := by
  unfold srcTail
  split <;> omega

/-- The `66` byte stands before `0F` in a 128-bit form (30_encoding.md R52). -/
theorem opSize_mem_of_opSizeFor {c : Config} {lead : List Lead} (h : opSizeFor c lead = .s128) : Lead.opSize ∈ lead := by
  by_contra hmem
  simp [opSizeFor, hmem] at h

end Sys2Proof

namespace Sys2Proof.Proofs
open Sys2Proof.Machine

/-- Settles O3: at most three leading bytes and five bytes behind ModRM; the bounds are reached by a register form, a
register form with `66`, and a form with three leading bytes, a SIB byte and `disp32`. -/
theorem encodedLengthIsThreeToEleven : Obligations.EncodedLengthIsThreeToEleven := by
  unfold Obligations.EncodedLengthIsThreeToEleven
  refine ⟨fun c i hwf => ?_, ?_, ?_, ?_⟩
  · obtain ⟨hlead, hsize, -⟩ := wellFormed_iff.mp hwf
    have hlen : (encode i).length = i.lead.length + 2 + 1 + srcTail i.src := encode_length i
    have hle := lead_length_le hlead
    have htail := srcTail_le i.src
    refine ⟨hlen, by omega, by omega, fun h128 => ?_⟩
    have hpos := List.length_pos_of_mem (opSize_mem_of_opSizeFor (hsize.trans h128))
    omega
  · exact ⟨Config.reset, .pcmpgtbMm [] 0 (.reg 1), by decide, by decide⟩
  · exact ⟨Config.reset, .pcmpgtbXmm [.opSize] 0 (.reg 1), by decide, rfl, by decide⟩
  · exact ⟨{ Config.reset with addrSize := .a16 },
      .pcmpgtbXmm [.opSize, .addrSize, .segment .cs] 0 (.mem32 (.sib 0 0 0 (.d32 0))), by decide, by decide⟩

end Sys2Proof.Proofs
end

section
/-! The byte strings that are refused (30_encoding.md R58, R59): by a foreign byte, by a repeated leading byte, and by an
instruction cut short. -/

namespace Sys2Proof

/-- Behind admitted leading bytes, a byte that is none and is not `0F` is refused by name (30_encoding.md R59). -/
theorem decode_of_foreignByte {lead : List Lead} {b : Byte} (h : leadsOk lead = true) (hb : leadOf b = none)
    (hesc : b ≠ 0x0F#8) (c : Config) (rest : List Byte) :
    decode c (lead.map leadByte ++ b :: rest) = .error (foreignReject b) := by
  simp [decode, takeLeads_append lead b rest hb, (leadsReject_none lead).mpr h, hesc]

/-- A leading byte of some kind that is repeated is refused by one of the three names for it (30_encoding.md R59). -/
theorem leadsReject_some {lead : List Lead} (h : leadsOk lead ≠ true) :
    ∃ why, leadsReject lead = some why ∧ (why = .second66 ∨ why = .second67 ∨ why = .secondOverride) := by
  cases hreject : leadsReject lead with
  | none => exact absurd ((leadsReject_none lead).mp hreject) h
  | some why =>
    refine ⟨why, rfl, ?_⟩
    unfold leadsReject at hreject
    split_ifs at hreject <;> cases hreject <;> simp

/-- Leading bytes that are refused are refused whatever follows `0F`. -/
theorem decode_of_leadsReject {lead : List Lead} {why : Reject} (h : leadsReject lead = some why) (c : Config)
    (rest : List Byte) : decode c (lead.map leadByte ++ 0x0F#8 :: rest) = .error why := by
  simp [decode, takeLeads_append lead 0x0F#8 rest rfl, h]

/-! What is left of a part of an instruction when the text ends inside it. -/

/-- Two bytes of displacement are refused only where they are not there. -/
theorem take16_error {α : Type} {f : BitVec 16 → α} {bs : List Byte} {why : Reject} (h : take16 f bs = .error why) :
    why = .truncated ∧ bs.length < 2 := by
  match bs, h with
  | [], h | [_], h => cases h; exact ⟨rfl, by simp⟩

/-- Four bytes of displacement are refused only where they are not there. -/
theorem take32_error {α : Type} {f : Dword → α} {bs : List Byte} {why : Reject} (h : take32 f bs = .error why) :
    why = .truncated ∧ bs.length < 4 := by
  match bs, h with
  | [], h | [_], h | [_, _], h | [_, _, _], h => cases h; exact ⟨rfl, by simp⟩

/-- One byte of displacement is refused only where it is not there. -/
theorem take8_error {α : Type} {f : Byte → α} {bs : List Byte} {why : Reject} (h : take8 f bs = .error why) :
    why = .truncated ∧ bs.length < 1 := by
  match bs, h with
  | [], h => cases h; exact ⟨rfl, by simp⟩

/-- A SIB byte is refused only where its displacement is not there: each of its values has a meaning. -/
theorem decodeSib_error {mod : BitVec 2} {sib : Byte} {bs : List Byte} {why : Reject}
    (h : decodeSib mod sib bs = .error why) : why = .truncated ∧ bs.length < 4 := by
  rw [decodeSib.eq_def] at h
  split_ifs at h
  · exact take32_error h
  · exact (take8_error h).imp id fun hlen => by omega
  · exact take32_error h

/-- A ModRM byte is refused only where what it calls for is not there, five bytes at most: each of its values has a meaning
(30_encoding.md R59). -/
theorem decodeSrc_error {size : AddrSize} {mod : BitVec 2} {rm : RegNum} {bs : List Byte} {why : Reject}
    (h : decodeSrc size mod rm bs = .error why) : why = .truncated ∧ bs.length < 5 := by
  have weaken {n : Nat} (hn : n ≤ 5) (h : why = .truncated ∧ bs.length < n) : why = .truncated ∧ bs.length < 5 :=
    h.imp id fun hlen => by omega
  rw [decodeSrc.eq_def] at h
  split_ifs at h
  cases size with
  | a16 =>
    dsimp only at h
    rw [decodeMem16.eq_def] at h
    split_ifs at h
    · exact weaken (by decide) (take16_error h)
    · exact weaken (by decide) (take8_error h)
    · exact weaken (by decide) (take16_error h)
  | a32 =>
    dsimp only at h
    rw [decodeMem32.eq_def] at h
    split_ifs at h
    · cases bs with
      | nil => cases h; exact ⟨rfl, by simp⟩
      | cons sib bs => exact (decodeSib_error h).imp id fun hlen => by simp; omega
    · exact weaken (by decide) (take32_error h)
    · exact weaken (by decide) (take8_error h)
    · exact weaken (by decide) (take32_error h)

/-- Where the bytes from the second opcode byte on decode when more follow, they are refused only as too short. -/
theorem decodeOpcode_error_of_append {c : Config} {lead : List Lead} {front back rest : List Byte} {i : Instr}
    {why : Reject} (hwhole : decodeOpcode c lead (front ++ back) = .ok (i, rest))
    (h : decodeOpcode c lead front = .error why) : why = .truncated := by
  obtain ⟨width, modrm, tail, src, hbytes, -, -⟩ := decodeOpcode_ok hwhole
  match front, hbytes, h with
  | [], _, h => cases h; rfl
  | [op], hbytes, h =>
    obtain ⟨rfl, -⟩ := List.cons.inj hbytes
    rw [decodeOpcode, widthOf_opcodeByte] at h
    cases h; rfl
  | op :: modrm' :: tail', hbytes, h =>
    obtain ⟨rfl, -⟩ := List.cons.inj hbytes
    rw [decodeOpcode, widthOf_opcodeByte] at h
    dsimp only at h
    split at h
    case h_1 hsrc => cases h; exact (decodeSrc_error hsrc).1
    case h_2 => cases h

/-- The leading bytes at the front of a string, when more follow: the string may end within the leading bytes, and then it
holds nothing else; or what stands behind them is the same. -/
theorem takeLeads_front (front back : List Byte) :
    ((takeLeads front).2 = [] ∧ (takeLeads front).1 <+: (takeLeads (front ++ back)).1) ∨
    ((takeLeads front).2 ≠ [] ∧
      takeLeads (front ++ back) = ((takeLeads front).1, (takeLeads front).2 ++ back)) := by
  induction front with
  | nil => exact .inl ⟨rfl, List.nil_prefix⟩
  | cons b front ih =>
    cases hb : leadOf b with
    | none => exact .inr (by simp [takeLeads, hb])
    | some l => simpa [takeLeads, hb, Prod.ext_iff] using ih

/-- Of leading bytes that repeat no kind, a part repeats none. -/
theorem leadsOk_of_sublist {part lead : List Lead} (hpart : part.Sublist lead) (h : leadsOk lead = true) :
    leadsOk part = true := by
  obtain ⟨h66, h67, hseg⟩ := leadsOk_iff.mp h
  exact leadsOk_iff.mpr
    ⟨(hpart.count_le _).trans h66, (hpart.count_le _).trans h67, hpart.countP_le.trans hseg⟩

/-- Where a string decodes when more bytes follow, it is refused only as too short (30_encoding.md R59). -/
theorem decode_error_of_append {c : Config} {front back rest : List Byte} {i : Instr} {why : Reject}
    (hwhole : decode c (front ++ back) = .ok (i, rest)) (h : decode c front = .error why) : why = .truncated := by
  obtain ⟨lead, bs, hbytes, hlead, hop⟩ := decode_ok hwhole
  have hleads : takeLeads (front ++ back) = (lead, 0x0F#8 :: bs) := hbytes ▸ takeLeads_append lead 0x0F#8 bs rfl
  rcases takeLeads_front front back with ⟨hnil, hprefix⟩ | ⟨hne, hfront⟩
  · rw [hleads] at hprefix
    have hok := leadsOk_of_sublist hprefix.sublist hlead
    simpa [decode, (leadsReject_none _).mpr hok, hnil, eq_comm] using h
  · obtain ⟨rfl, hbs⟩ := Prod.mk.inj (hleads.symm.trans hfront)
    obtain ⟨b, tail, hcons⟩ := List.exists_cons_of_ne_nil hne
    rw [hcons] at hbs
    obtain ⟨rfl, rfl⟩ := List.cons.inj hbs
    have hsame : decode c front = decodeOpcode c (takeLeads front).1 tail := by
      simp [decode, (leadsReject_none _).mpr hlead, hcons]
    exact decodeOpcode_error_of_append hop (hsame.symm.trans h)

/-- No proper front part of an encoding decodes: it would be another instruction's encoding with other bytes behind it, and
the whole string would decode to both (30_encoding.md R60). -/
theorem decode_front_not_ok {c : Config} {i : Instr} {front back : List Byte} (hwf : WellFormed c i)
    (hbytes : encode i = front ++ back) (hback : back ≠ []) (r : Instr × List Byte) : decode c front ≠ .ok r := by
  intro h
  obtain ⟨j, rest⟩ := r
  obtain ⟨hwfj, hfront⟩ := wellFormed_and_encode_of_decode h
  have hi : decode c (encode i) = .ok (i, []) := by simpa using decode_encode_append hwf []
  have hj : decode c (encode i) = .ok (j, rest ++ back) := by
    rw [hbytes, hfront, List.append_assoc]
    exact decode_encode_append hwfj (rest ++ back)
  have hrest : rest ++ back = [] := (Prod.mk.inj (Except.ok.inj (hj.symm.trans hi))).2
  exact hback (List.append_eq_nil_iff.mp hrest).2

end Sys2Proof

namespace Sys2Proof.Proofs
open Sys2Proof.Machine

/-- Settles O5. -/
theorem foreignBytesAreRefused : Obligations.ForeignBytesAreRefused := by
  unfold Obligations.ForeignBytesAreRefused
  intro c lead b rest hlead
  refine ⟨fun hb hesc => decode_of_foreignByte hlead hb hesc c rest, fun h64 h65 h66 => ?_⟩
  rw [decode_of_leadsOk hlead]
  simp [decodeOpcode, widthOf, h64, h65, h66]

/-- Settles O6. -/
theorem repeatedLeadingBytesAreRefused : Obligations.RepeatedLeadingBytesAreRefused := by
  unfold Obligations.RepeatedLeadingBytesAreRefused
  intro c lead rest hrepeated
  have hnotOk : leadsOk lead ≠ true := by
    rw [Ne, leadsOk_iff]
    omega
  obtain ⟨why, hreject, hname⟩ := leadsReject_some hnotOk
  exact ⟨why, decode_of_leadsReject hreject c rest, hname⟩

/-- Settles O7: a proper front part of an encoding does not decode, and the only refusal of a front part is that it is too
short. -/
theorem truncatedInstructionIsRefused : Obligations.TruncatedInstructionIsRefused := by
  unfold Obligations.TruncatedInstructionIsRefused
  intro c i front back hwf hbytes hback
  have hwhole : decode c (front ++ back) = .ok (i, []) := by
    simpa [hbytes] using decode_encode_append hwf []
  cases hfront : decode c front with
  | ok r => exact absurd hfront (decode_front_not_ok hwf hbytes hback r)
  | error why => rw [decode_error_of_append hwhole hfront]

end Sys2Proof.Proofs
end

section
/-! What the ModRM byte, the opcode table's words and a processor without SSE2 make of an encoding (30_encoding.md R53, R57,
R59, R64). -/

namespace Sys2Proof

/-- Behind a ModRM byte, five bytes are always enough for an operand (30_encoding.md R54, R56). -/
theorem decodeSrc_ok_of_length {bs : List Byte} (h : 5 ≤ bs.length) (size : AddrSize) (mod : BitVec 2) (rm : RegNum) :
    ∃ src rest, decodeSrc size mod rm bs = .ok (src, rest) := by
  cases hsrc : decodeSrc size mod rm bs with
  | ok r => exact ⟨r.1, r.2, rfl⟩
  | error why => exact absurd (decodeSrc_error hsrc).2 (by omega)

/-- An encoded operand starts with a ModRM byte: where it stands in front of other bytes, that byte is the string's first. -/
theorem encodeSrc_of_cons {dst : RegNum} {src : Src} {modrm : Byte} {bs rest : List Byte}
    (h : modrm :: bs = encodeSrc dst src ++ rest) : ∃ tail, encodeSrc dst src = modrm :: tail := by
  have hlen := encodeSrc_length dst src
  rcases List.cons_eq_append_iff.mp h with ⟨hnil, -⟩ | ⟨tail, hcons, -⟩
  · rw [hnil] at hlen
    simp at hlen
    omega
  · exact ⟨tail, hcons⟩

/-- Leading bytes with no repeated kind, no `67` and no override are at most a `66` byte (30_encoding.md R64). -/
theorem lead_of_no_addrSize_no_override {lead : List Lead} (h : leadsOk lead = true) (h67 : Lead.addrSize ∉ lead)
    (hseg : ∀ g, Lead.segment g ∉ lead) : lead = [] ∨ lead = [.opSize] := by
  have honly : ∀ l ∈ lead, l = .opSize := by
    intro l hl
    cases l with
    | opSize => rfl
    | addrSize => exact absurd hl h67
    | segment g => exact absurd hl (hseg g)
  have hrep : lead = List.replicate lead.length .opSize := List.eq_replicate_of_mem honly
  have hlen : lead.length ≤ 1 := by
    obtain ⟨h66, -, -⟩ := leadsOk_iff.mp h
    rwa [hrep, List.count_replicate_self] at h66
  rcases Nat.le_one_iff_eq_zero_or_eq_one.mp hlen with hzero | hone
  · exact .inl (List.length_eq_zero_iff.mp hzero)
  · exact .inr (by rw [hrep, hone]; rfl)

end Sys2Proof

namespace Sys2Proof.Machine

/-- A mask on the first four bytes is a mask on each of them. -/
theorem firstFour_and (bytes : List Byte) (m0 m1 m2 m3 : Byte) :
    firstFour bytes &&& (m0 ++ m1 ++ m2 ++ m3) =
      (bytes.getD 0 0 &&& m0) ++ (bytes.getD 1 0 &&& m1) ++ (bytes.getD 2 0 &&& m2) ++ (bytes.getD 3 0 &&& m3) := by
  rw [firstFour, BitVec.and_append, BitVec.and_append, BitVec.and_append]

/-- `0F` and the second opcode byte are what the row without `66` asks for (30_encoding.md R64). -/
theorem firstFour_matches_row (width : Width) (tail : List Byte) :
    firstFour (0x0F#8 :: opcodeByte width :: tail) &&& (tableRow false width).1 = (tableRow false width).2 := by
  have hmask : (tableRow false width).1 = 0xFF#8 ++ 0xFF#8 ++ 0x00#8 ++ 0x00#8 := by cases width <;> rfl
  have hmatch : (tableRow false width).2 = 0x0F#8 ++ opcodeByte width ++ 0x00#8 ++ 0x00#8 := by cases width <;> rfl
  rw [hmask, hmatch, firstFour_and]
  cases width <;> simp [opcodeByte]

/-- `66`, `0F` and the second opcode byte are what the row with `66` asks for (30_encoding.md R64). -/
theorem firstFour_matches_row_opSize (width : Width) (tail : List Byte) :
    firstFour (0x66#8 :: 0x0F#8 :: opcodeByte width :: tail) &&& (tableRow true width).1 = (tableRow true width).2 := by
  have hmask : (tableRow true width).1 = 0xFF#8 ++ 0xFF#8 ++ 0xFF#8 ++ 0x00#8 := by cases width <;> rfl
  have hmatch : (tableRow true width).2 = 0x66#8 ++ 0x0F#8 ++ opcodeByte width ++ 0x00#8 := by cases width <;> rfl
  rw [hmask, hmatch, firstFour_and]
  cases width <;> simp [opcodeByte]

/-- A word that matches two rows makes each row's match agree with the other's under both masks. -/
theorem matches_agree {word m x m' x' : BitVec 32} (h : word &&& m = x) (h' : word &&& m' = x') : x &&& m' = x' &&& m := by
  rw [← h, ← h', BitVec.and_assoc, BitVec.and_assoc, BitVec.and_comm m m']

/-- Rows that agree under both masks are one row: a finite check of the six rows against each other. -/
theorem tableRow_disjoint {p q : Bool} {u v : Width}
    (h : (tableRow p u).2 &&& (tableRow q v).1 = (tableRow q v).2 &&& (tableRow p u).1) : p = q ∧ u = v := by
  revert h
  cases p <;> cases q <;> cases u <;> cases v <;> decide

end Sys2Proof.Machine

namespace Sys2Proof.Proofs
open Sys2Proof.Machine

/-- Settles O8: five zero bytes behind ModRM are enough for the decoder to read an instruction; what it took of them is the
tail, since the bytes it took are the instruction's encoding. -/
theorem everyModRmByteIsMeaningful : Obligations.EveryModRmByteIsMeaningful := by
  unfold Obligations.EveryModRmByteIsMeaningful
  intro c lead width modrm hlead
  obtain ⟨src, rest, hsrc⟩ :=
    decodeSrc_ok_of_length (bs := List.replicate 5 0) (by simp) (addrSizeFor c lead) (fieldHi modrm) (fieldLo modrm)
  obtain ⟨hreg, hmem⟩ := decodeSrc_ok_reg hsrc
  have hread := (decodeSrc_ok hsrc).1 (fieldMid modrm)
  rw [packFields_fields] at hread
  obtain ⟨tail, htail⟩ := encodeSrc_of_cons hread
  have hwf : WellFormed c (Instr.form (opSizeFor c lead) width lead (fieldMid modrm) src) :=
    wellFormed_form.mpr ⟨hlead, rfl, srcOk_of_decodeSrc hsrc⟩
  have hdecode := decode_encode_append hwf []
  rw [List.append_nil, encode_form, htail] at hdecode
  exact ⟨tail, _, hdecode, form_width .., form_dst .., form_lead .., by rwa [form_src], by rwa [form_src]⟩

/-- Settles O9: a decoded string is its instruction's encoding, which the row's words are written from, and no two rows
agree. -/
theorem decodedBytesMatchTheirTableRow : Obligations.DecodedBytesMatchTheirTableRow := by
  unfold Obligations.DecodedBytesMatchTheirTableRow
  refine ⟨fun c bytes i rest hdecode h67 hseg => ?_, fun word p q u v hp hq => tableRow_disjoint (matches_agree hp hq)⟩
  obtain ⟨hwf, rfl⟩ := wellFormed_and_encode_of_decode hdecode
  obtain ⟨hlead, -, -⟩ := wellFormed_iff.mp hwf
  rcases lead_of_no_addrSize_no_override hlead h67 hseg with hnil | h66
  · simpa [encode, hnil] using firstFour_matches_row i.width (encodeSrc i.dst i.src ++ rest)
  · simpa [encode, h66, leadByte] using firstFour_matches_row_opSize i.width (encodeSrc i.dst i.src ++ rest)

/-- Settles O10: the encoding holds no operand size but the `66` byte, which selects the 64-bit form there. -/
theorem withoutSse2TheBytesAreThe64BitForm : Obligations.WithoutSse2TheBytesAreThe64BitForm := by
  unfold Obligations.WithoutSse2TheBytesAreThe64BitForm
  intro c width lead dst src hwf
  obtain ⟨hlead, -, hsrc⟩ := wellFormed_form.mp hwf
  have hsrc' : srcOk { c with sse2 := false } lead src = true := by
    cases src <;> exact hsrc
  have hwf64 : WellFormed { c with sse2 := false } (Instr.form .s64 width lead dst src) :=
    wellFormed_form.mpr ⟨hlead, by simp [opSizeFor], hsrc'⟩
  have hdecode := decode_encode_append hwf64 []
  rwa [List.append_nil, encode_form, ← encode_form .s128] at hdecode

/-- Settles O4, word by word. -/
theorem writtenOutWordsDecode : Obligations.WrittenOutWordsDecode := by
  unfold Obligations.WrittenOutWordsDecode
  refine ⟨?_, ?_, ?_, ?_, ?_⟩ <;> decide

end Sys2Proof.Proofs
end

section
/-! The operand's segment and effective address as arithmetic (30_encoding.md R54, R55, R56, R58). -/

namespace Sys2Proof

/-- Where at most one override byte stands, the one that stands there names the segment (30_encoding.md R58). -/
theorem overrideOf_of_mem {lead : List Lead} {g : Seg} (h : lead.countP isOverride ≤ 1) (hg : Lead.segment g ∈ lead) :
    overrideOf lead = some g := by
  induction lead with
  | nil => cases hg
  | cons l lead ih =>
    rw [List.countP_cons] at h
    cases l with
    | opSize => exact ih (by omega) (by simpa using hg)
    | addrSize => exact ih (by omega) (by simpa using hg)
    | segment g' =>
      have hnone : ¬ 0 < lead.countP isOverride := by
        simp only [isOverride, if_true] at h
        omega
      rcases List.mem_cons.mp hg with heq | hmem
      · cases heq; rfl
      · exact absurd (List.countP_pos_iff.mpr ⟨_, hmem, rfl⟩) hnone

/-- Where no override byte stands, none names a segment. -/
theorem overrideOf_of_not_mem {lead : List Lead} (h : ∀ g, Lead.segment g ∉ lead) : overrideOf lead = none := by
  induction lead with
  | nil => rfl
  | cons l lead ih =>
    have ih := ih fun g hg => h g (List.mem_cons_of_mem l hg)
    cases l with
    | opSize => exact ih
    | addrSize => exact ih
    | segment g => exact absurd List.mem_cons_self (h g)

end Sys2Proof

namespace Sys2Proof.Machine

/-- The segment where an override byte names one (30_encoding.md R58). -/
theorem segFor_of_mem {lead : List Lead} {g : Seg} (h : leadsOk lead = true) (hg : Lead.segment g ∈ lead) (default : Seg) :
    segFor lead default = g := by
  obtain ⟨-, -, hseg⟩ := leadsOk_iff.mp h
  simp [segFor, overrideOf_of_mem hseg hg]

/-- The segment where no override byte stands (30_encoding.md R55). -/
theorem segFor_of_not_mem {lead : List Lead} (h : ∀ g, Lead.segment g ∉ lead) (default : Seg) :
    segFor lead default = default := by
  simp [segFor, overrideOf_of_not_mem h]

/-- The segment of a memory operand is the override's or the default of its addressing form. -/
theorem memOperand_seg {s : State} {lead : List Lead} {src : Src} {operand : Seg × Dword}
    (h : memOperand s lead src = some operand) : ∃ default, operand.1 = segFor lead default := by
  cases src with
  | reg r => cases h
  | mem32 a => cases h; exact ⟨_, rfl⟩
  | mem16 a => cases h; exact ⟨_, rfl⟩

/-- Sign extension keeps the signed value, as the wider word writes it down. -/
theorem toNat_signExtend_eq_emod {w v : Nat} (x : BitVec w) : ((x.signExtend v).toNat : Int) = x.toInt % 2 ^ v := by
  have hpos : (0 : Int) ≤ x.toInt % 2 ^ v := Int.emod_nonneg _ (by positivity)
  rw [BitVec.signExtend, BitVec.toNat_ofInt]
  simpa using hpos

/-- A 32-bit form's displacement is its integer modulo `2^32` (30_encoding.md R54). -/
theorem toNat_disp32Value (disp : Disp32) : ((disp32Value disp).toNat : Int) = disp32Int disp % 2 ^ 32 := by
  cases disp with
  | none => rfl
  | d8 d => exact toNat_signExtend_eq_emod d
  | d32 d =>
    have := d.isLt
    simp only [disp32Value, disp32Int]
    omega

/-- A 16-bit form's displacement is its integer modulo `2^16` (30_encoding.md R56). -/
theorem toNat_disp16Value (disp : Disp16) : ((disp16Value disp).toNat : Int) = disp16Int disp % 2 ^ 16 := by
  cases disp with
  | none => rfl
  | d8 d => exact toNat_signExtend_eq_emod d
  | d16 d =>
    have := d.isLt
    simp only [disp16Value, disp16Int]
    omega

/-- The scaled index is its integer modulo `2^32` (30_encoding.md R54). -/
theorem toNat_sibIndex (s : State) (scale : BitVec 2) (index : RegNum) :
    ((sibIndex s scale index).toNat : Int) = indexInt s scale index % 2 ^ 32 := by
  by_cases h : index = 4#3
  · simp [sibIndex, indexInt, h]
  · simp [sibIndex, indexInt, h, BitVec.toNat_shiftLeft, Nat.shiftLeft_eq]

/-- The 16-bit register names are the low halves of the general registers (10_state.md R13). -/
theorem toNat_reg16 (s : State) (r : RegNum) : ((s.reg16 r).toNat : Int) = (s.reg32 r).toNat % 2 ^ 16 := by
  simp [State.reg16]

/-- With 16-bit addressing and a row's registers worth `base` modulo `2^16`, the effective address is the sum with the
displacement modulo `2^16` (30_encoding.md R56). -/
theorem toNat_ea16_based {s : State} {rm : RegNum} {base : Int} (disp : Disp16)
    (h : ((base16 s rm).toNat : Int) = base % 2 ^ 16) :
    ((ea16 s (.based rm disp)).toNat : Int) = (base + disp16Int disp) % 2 ^ 16 := by
  have hdisp := toNat_disp16Value disp
  simp only [ea16, BitVec.toNat_add]
  omega

/-- Two registers' low halves, added, are worth the sum of their contents modulo `2^16`. -/
theorem toNat_reg16_add (s : State) (r q : RegNum) :
    ((s.reg16 r + s.reg16 q).toNat : Int) = ((s.reg32 r).toNat % 2 ^ 16 + (s.reg32 q).toNat % 2 ^ 16) % 2 ^ 16 := by
  have hr := toNat_reg16 s r
  have hq := toNat_reg16 s q
  rw [BitVec.toNat_add]
  omega

/-- One register's low half is worth its content modulo `2^16`. -/
theorem toNat_reg16_emod (s : State) (r : RegNum) :
    ((s.reg16 r).toNat : Int) = ((s.reg32 r).toNat % 2 ^ 16) % 2 ^ 16 := by
  rw [toNat_reg16, Int.emod_emod]

end Sys2Proof.Machine

namespace Sys2Proof.Proofs
open Sys2Proof.Machine

/-- Settles O11: each part of the sum is its integer modulo `2^32`. -/
theorem effectiveAddress32IsTheModularSum : Obligations.EffectiveAddress32IsTheModularSum := by
  unfold Obligations.EffectiveAddress32IsTheModularSum
  intro s rm base index scale disp d
  have hdisp := toNat_disp32Value disp
  have hindex := toNat_sibIndex s scale index
  refine ⟨?_, rfl, ?_, ?_⟩
  all_goals
    simp only [ea32, BitVec.toNat_add]
    omega

/-- Settles O12, row by row of R56's table. -/
theorem effectiveAddress16IsTheModularSum : Obligations.EffectiveAddress16IsTheModularSum := by
  unfold Obligations.EffectiveAddress16IsTheModularSum
  intro s disp d
  exact ⟨toNat_ea16_based disp (toNat_reg16_add s 3#3 6#3), toNat_ea16_based disp (toNat_reg16_add s 3#3 7#3),
    toNat_ea16_based disp (toNat_reg16_add s 5#3 6#3), toNat_ea16_based disp (toNat_reg16_add s 5#3 7#3),
    toNat_ea16_based disp (toNat_reg16_emod s 6#3), toNat_ea16_based disp (toNat_reg16_emod s 7#3),
    toNat_ea16_based disp (toNat_reg16_emod s 5#3), toNat_ea16_based disp (toNat_reg16_emod s 3#3), rfl⟩

/-- Settles O13. -/
theorem segmentIsTheOverrideOrTheDefault : Obligations.SegmentIsTheOverrideOrTheDefault := by
  unfold Obligations.SegmentIsTheOverrideOrTheDefault
  intro s lead rm base index scale disp disp' d d'
  refine ⟨fun g src operand hlead hg hop => ?_, fun hnone operand => ?_⟩
  · obtain ⟨default, hseg⟩ := memOperand_seg hop
    rw [hseg, segFor_of_mem hlead hg]
  · refine ⟨?_, ?_, ?_, ?_, ?_, ?_⟩
    all_goals
      intro hop
      cases hop
      exact segFor_of_not_mem hnone _

end Sys2Proof.Proofs
end

section
/-! Runs end (30_encoding.md R60): every step that answers a next state takes three bytes of the text at least, and one that
records an exception is the last. -/

namespace Sys2Proof.Machine

/-- A fetch that answers bytes answers those of the text from `pc` on, and `pc` stands in the text (20_memory.md R47). -/
theorem fetch_ok {s : State} {bytes : List Byte} (h : fetch s = .ok bytes) :
    s.textBase.toNat ≤ s.pc.toNat ∧ s.pc.toNat + bytes.length = s.textEnd := by
  rw [fetch] at h
  split_ifs at h with hend hinside
  obtain ⟨hbase, hlt⟩ := hinside
  cases h
  rw [List.length_drop]
  unfold State.textEnd at hlt ⊢
  omega

/-- A step that answers a next state has three bytes of the text ahead of it at least; it keeps the text's place, and it
records an exception or moves `pc` over those bytes, without a wrap (10_state.md R19, 30_encoding.md R60). -/
theorem step_next_pc {s t : State} (h : step s = .next t) :
    s.textBase.toNat ≤ s.pc.toNat ∧ s.pc.toNat + 3 ≤ s.textEnd ∧ t.textEnd = s.textEnd ∧
      (t.fault ≠ none ∨ s.pc.toNat + 3 ≤ t.pc.toNat) := by
  obtain ⟨-, hlaunch, bytes, i, rest, hfetch, hdecode, hexec⟩ := step_next_cases h
  obtain ⟨hbase, hend⟩ := fetch_ok hfetch
  obtain ⟨-, rfl⟩ := wellFormed_and_encode_of_decode hdecode
  rw [List.length_append, encode_length] at hend
  have hlen : 3 ≤ lengthOf i.lead i.src := by unfold lengthOf; omega
  have htop : s.textEnd < 2 ^ 32 := (launchRefusal_none_iff.mp hlaunch).belowTop
  refine ⟨hbase, by omega, ?_⟩
  rcases exec_completed_or_took hexec with hdone | ⟨e, htook, -⟩
  · have hrest := hdone.keepsRest
    obtain ⟨hpc, -⟩ := hdone
    refine ⟨by simp only [State.textEnd, hrest.text, hrest.textBase], .inr ?_⟩
    rw [hpc, BitVec.toNat_add, BitVec.toNat_ofNat]
    omega
  · exact ⟨by simp only [State.textEnd, htook.rest.text, htook.rest.textBase], .inl (by simp [htook.fault])⟩

/-- Where an exception is recorded, only a run of no steps answers a state (60_exceptions.md R109). -/
theorem run_next_of_fault {k : Nat} {s t : State} (hfault : s.fault ≠ none) (h : core.run k s = .next t) : k = 0 := by
  cases k with
  | zero => rfl
  | succ k =>
    obtain ⟨u, hstep, -⟩ := run_succ_next (M := core) h
    obtain ⟨hnone, -⟩ := step_next_cases hstep
    exact absurd hnone hfault

/-- A run of `k` steps that answers a state starts with three bytes for each of them ahead of it in the text. -/
theorem run_next_room {k : Nat} {s t : State} (h : core.run k s = .next t) :
    k = 0 ∨ (s.textBase.toNat ≤ s.pc.toNat ∧ s.pc.toNat + 3 * k ≤ s.textEnd) := by
  induction k generalizing s with
  | zero => exact .inl rfl
  | succ k ih =>
    obtain ⟨u, hstep, hrun⟩ := run_succ_next (M := core) h
    obtain ⟨hbase, hroom, hend, hnext⟩ := step_next_pc hstep
    refine .inr ⟨hbase, ?_⟩
    rcases hnext with hfault | hpc
    · have hlast := run_next_of_fault hfault hrun
      omega
    · rcases ih hrun with hlast | ⟨-, hahead⟩ <;> omega

end Sys2Proof.Machine

namespace Sys2Proof.Proofs
open Sys2Proof.Machine

/-- Settles O47, by induction over the run: each step takes three bytes of the text. -/
theorem everyRunEndsWithinTheText : Obligations.EveryRunEndsWithinTheText := by
  unfold Obligations.EveryRunEndsWithinTheText
  intro k s t hk hrun
  rcases run_next_room hrun with hzero | ⟨hbase, hroom⟩
  · omega
  · unfold State.textEnd at hroom
    omega

end Sys2Proof.Proofs
end

section
/-! The lane function (40_pcmpgt.md R70, R78): its two values, and the signed order read off the bits. -/

namespace Sys2Proof.Machine

/-- The lane function has two values. -/
theorem gtLane_eq_allOnes_or_zero {N : Nat} (a b : BitVec N) : gtLane a b = BitVec.allOnes N ∨ gtLane a b = 0 :=
  ite_eq_or_eq _ _ _

/-- The lane function tells the greater signed integer: in a lane of at least one bit its two values differ. -/
theorem gtLane_eq_allOnes_iff {N : Nat} (hN : 0 < N) {a b : BitVec N} :
    gtLane a b = BitVec.allOnes N ↔ b.toInt < a.toInt := by
  simp [gtLane, hN.ne']

/-- The lane function is zero where the first element is not the greater one. -/
theorem gtLane_eq_zero_iff {N : Nat} (hN : 0 < N) {a b : BitVec N} : gtLane a b = 0 ↔ a.toInt ≤ b.toInt := by
  simp [gtLane, hN.ne']

/-- No element is greater than itself. -/
@[simp] theorem gtLane_self {N : Nat} (a : BitVec N) : gtLane a a = 0 := if_neg (lt_irrefl _)

/-- Flipping the sign bit of an element adds `2^(N-1)` to its signed value: the result, unsigned, is that sum. -/
theorem toNat_xor_signBit {N : Nat} (hN : 0 < N) (a : BitVec N) :
    ((a ^^^ BitVec.ofNat N (2 ^ (N - 1))).toNat : Int) = a.toInt + 2 ^ (N - 1) := by
  obtain ⟨n, rfl⟩ : ∃ n, N = n + 1 := ⟨N - 1, by omega⟩
  have hsign : BitVec.ofNat (n + 1) (2 ^ n) = BitVec.cons true 0#n := by
    apply BitVec.eq_of_toNat_eq
    rw [BitVec.toNat_ofNat, Nat.mod_eq_of_lt (Nat.pow_lt_pow_right one_lt_two n.lt_succ_self), BitVec.toNat_cons']
    simp [Nat.shiftLeft_eq]
  rw [Nat.add_sub_cancel, hsign]
  -- `a` is its sign bit on top of the other bits, and the flip changes the sign bit alone
  obtain ⟨sign, low, rfl⟩ : ∃ sign low, a = BitVec.cons sign low :=
    ⟨a.msb, a.setWidth n, (BitVec.cons_msb_setWidth a).symm⟩
  rw [BitVec.cons_xor_cons, BitVec.xor_zero, BitVec.toInt_eq_msb_cond, BitVec.msb_cons, BitVec.toNat_cons',
    BitVec.toNat_cons']
  cases sign with
  | false => simp [Nat.shiftLeft_eq, Int.add_comm]
  | true => simp [Nat.shiftLeft_eq, pow_succ]; omega

/-- The signed order is the unsigned order of the elements with their sign bits flipped (40_pcmpgt.md R78). -/
theorem toInt_lt_iff_xor_signBit {N : Nat} (hN : 0 < N) (a b : BitVec N) :
    b.toInt < a.toInt ↔
      (b ^^^ BitVec.ofNat N (2 ^ (N - 1))).toNat < (a ^^^ BitVec.ofNat N (2 ^ (N - 1))).toNat := by
  rw [← Int.ofNat_lt, toNat_xor_signBit hN, toNat_xor_signBit hN, add_lt_add_iff_right]

/-- The signed order by the sign bits: the unsigned order where they agree, else the one with sign bit 0 is the greater
(40_pcmpgt.md R78). -/
theorem toInt_lt_iff_msb {N : Nat} (a b : BitVec N) :
    b.toInt < a.toInt ↔ if a.msb = b.msb then b.toNat < a.toNat else a.msb = false := by
  rw [← BitVec.slt_iff_toInt_lt]
  split
  case isTrue h => rw [BitVec.slt_eq_ult_of_msb_eq h.symm, BitVec.ult_iff_lt, BitVec.lt_def]
  case isFalse h =>
    have hne : b.msb ≠ a.msb := Ne.symm h
    rw [BitVec.slt_eq_not_ult_of_msb_neq hne, BitVec.ult_eq_msb_of_msb_neq hne, Bool.not_eq_true']

/-- Every element has at least one bit. -/
theorem ElementWidth.pos {N : Nat} (h : ElementWidth N) : 0 < N := by rcases h with rfl | rfl | rfl <;> decide

end Sys2Proof.Machine

namespace Sys2Proof.Proofs
open Sys2Proof.Machine

/-- Settles O15: flipping the sign bits shifts both signed values by the same amount. -/
theorem signedOrderIsUnsignedOrderWithSignBitsFlipped : Obligations.SignedOrderIsUnsignedOrderWithSignBitsFlipped := by
  unfold Obligations.SignedOrderIsUnsignedOrderWithSignBitsFlipped
  intro N hwidth a b
  have hN : 0 < N := hwidth.pos
  have hgt : gtLane a b = BitVec.allOnes N ↔ b.toInt < a.toInt := gtLane_eq_allOnes_iff hN
  have hminus : (BitVec.allOnes N).toInt = -1 := by rw [BitVec.toInt_allOnes, if_pos hN]
  exact ⟨gtLane_eq_allOnes_or_zero a b, hgt, hminus, BitVec.toNat_allOnes, hgt.trans (toInt_lt_iff_xor_signBit hN a b),
    hgt.trans (toInt_lt_iff_msb a b)⟩

end Sys2Proof.Proofs
end

section
/-! The packed compare as a whole (40_pcmpgt.md R71, R79 to R81): its lanes, its halves, and the source's Operation text run
lane by lane. -/

namespace Sys2Proof.Machine

/-- The lanes of an operand fill it exactly. -/
theorem ElementWidth.mul_div_self {N S : Nat} (hN : ElementWidth N) (hS : OperandWidth S) : N * (S / N) = S := by
  rcases hN with rfl | rfl | rfl <;> rcases hS with rfl | rfl <;> rfl

/-- Every lane of zero is zero. -/
@[simp] theorem lane_zero {S : Nat} (N k : Nat) : lane N k (0 : BitVec S) = 0 := BitVec.extractLsb'_zero

/-- A vector compared with itself is zero (40_pcmpgt.md R79). -/
theorem pcmpgt_self {N S : Nat} (hN : 0 < N) (hS : N * (S / N) = S) (a : BitVec S) : pcmpgt N a a = 0 :=
  eq_of_lanes N hN hS fun k hk => by rw [lane_pcmpgt N k a a hN hk, gtLane_self, lane_zero]

/-- No lane is greater both ways. -/
theorem not_gtLane_both {N : Nat} (hN : 0 < N) (a b : BitVec N) :
    ¬ (gtLane a b = BitVec.allOnes N ∧ gtLane b a = BitVec.allOnes N) := by
  rw [gtLane_eq_allOnes_iff hN, gtLane_eq_allOnes_iff hN]
  exact fun ⟨hab, hba⟩ => lt_asymm hab hba

/-- Neither of two elements is the greater one exactly where they are equal. -/
theorem gtLane_zero_both_iff {N : Nat} (hN : 0 < N) (a b : BitVec N) : gtLane a b = 0 ∧ gtLane b a = 0 ↔ a = b := by
  rw [gtLane_eq_zero_iff hN, gtLane_eq_zero_iff hN, ← le_antisymm_iff, BitVec.toInt_inj]

/-- A lane of a part that begins at lane `m` is the lane as far above it. -/
theorem lane_extractLsb' {S : Nat} {N m k T : Nat} (h : k < T / N) (v : BitVec S) :
    lane N k (v.extractLsb' (N * m) T) = lane N (m + k) v := by
  have hle : N * (k + 1) ≤ T := (Nat.mul_le_mul_left N h).trans (Nat.mul_div_le T N)
  apply BitVec.eq_of_getLsbD_eq
  intro j hj
  have hin : N * k + j < T := by rw [Nat.mul_succ] at hle; omega
  rw [getLsbD_lane _ _ _ _ hj, getLsbD_lane _ _ _ _ hj, BitVec.getLsbD_extractLsb', decide_eq_true hin, Bool.true_and,
    Nat.mul_add, Nat.add_assoc]

/-- A part of whole lanes of the packed compare is the packed compare of the parts (40_pcmpgt.md R81). -/
theorem extractLsb'_pcmpgt {S N m T : Nat} (hN : 0 < N) (hT : N * (T / N) = T) (hin : m + T / N ≤ S / N)
    (a b : BitVec S) :
    (pcmpgt N a b).extractLsb' (N * m) T = pcmpgt N (a.extractLsb' (N * m) T) (b.extractLsb' (N * m) T) := by
  refine eq_of_lanes N hN hT fun k hk => ?_
  rw [lane_extractLsb' hk, lane_pcmpgt N _ a b hN (by omega), lane_pcmpgt N k _ _ hN hk, lane_extractLsb' hk,
    lane_extractLsb' hk]

/-! The Operation text. -/

/-- A bit after a lane is replaced: the new element's inside the lane, else the old one. -/
theorem getLsbD_setLane {N S : Nat} (k : Nat) (v : BitVec S) (x : BitVec N) {i : Nat} (hi : i < S) :
    (setLane k v x).getLsbD i = if N * k ≤ i ∧ i < N * k + N then x.getLsbD (i - N * k) else v.getLsbD i := by
  simp only [setLane, BitVec.getLsbD_or, BitVec.getLsbD_and, BitVec.getLsbD_not, BitVec.getLsbD_shiftLeft,
    BitVec.getLsbD_setWidth, BitVec.getLsbD_allOnes]
  split
  case isTrue h => simp [hi, show i - N * k < S by omega, show ¬ i < N * k by omega, show i - N * k < N by omega]
  case isFalse h =>
    by_cases hbelow : i < N * k
    · simp [hi, hbelow]
    · simp [hi, hbelow, show N ≤ i - N * k by omega]

/-- Replacing a lane changes that lane and no other. -/
theorem lane_setLane {N S : Nat} {j k : Nat} (hj : j < S / N) (v : BitVec S) (x : BitVec N) :
    lane N j (setLane k v x) = if j = k then x else lane N j v := by
  have htop : N * (j + 1) ≤ S := (Nat.mul_le_mul_left N hj).trans (Nat.mul_div_le S N)
  apply BitVec.eq_of_getLsbD_eq
  intro i hi
  rw [getLsbD_lane N j i _ hi, getLsbD_setLane k v x (by rw [Nat.mul_succ] at htop; omega)]
  rcases Nat.lt_trichotomy j k with hlt | rfl | hgt
  · have hbelow : N * (j + 1) ≤ N * k := Nat.mul_le_mul_left N hlt
    rw [Nat.mul_succ] at hbelow
    rw [if_neg (by omega), if_neg hlt.ne, getLsbD_lane N j i v hi]
  · rw [if_pos ⟨by omega, by omega⟩, if_pos rfl, Nat.add_sub_cancel_left]
  · have habove : N * (k + 1) ≤ N * j := Nat.mul_le_mul_left N hgt
    rw [Nat.mul_succ] at habove
    rw [if_neg (by omega), if_neg hgt.ne', getLsbD_lane N j i v hi]

/-- A text of one statement per lane, each replacing its lane by a function of the lane's own content: whatever the order of
its distinct lanes, each lane it lists holds the function of its first content, and the others are unchanged. -/
theorem lane_foldl_setLane {N S : Nat} (f : Nat → BitVec N → BitVec N) {order : List Nat} (hnd : order.Nodup)
    {j : Nat} (hj : j < S / N) (a : BitVec S) :
    lane N j (order.foldl (fun dst k => setLane k dst (f k (lane N k dst))) a) =
      if j ∈ order then f j (lane N j a) else lane N j a := by
  induction order generalizing a with
  | nil => rfl
  | cons k order ih =>
    obtain ⟨hk, hnd⟩ := List.nodup_cons.mp hnd
    rw [List.foldl_cons, ih hnd, lane_setLane hj]
    by_cases hjk : j = k
    · subst hjk; simp [hk]
    · simp [hjk]

/-- In any order of all lanes, such a text applies the function to every lane. -/
theorem lane_foldl_setLane_of_perm {N S : Nat} (f : Nat → BitVec N → BitVec N) {order : List Nat}
    (hperm : order.Perm (List.range (S / N))) {j : Nat} (hj : j < S / N) (a : BitVec S) :
    lane N j (order.foldl (fun dst k => setLane k dst (f k (lane N k dst))) a) = f j (lane N j a) := by
  rw [lane_foldl_setLane f (hperm.nodup_iff.mpr List.nodup_range) hj,
    if_pos (hperm.mem_iff.mpr (List.mem_range.mpr hj))]

/-- The Operation text, in any order of its lanes, is the packed compare (40_pcmpgt.md R80). -/
theorem operationText_eq_pcmpgt {N S : Nat} (hN : 0 < N) (hS : N * (S / N) = S) {order : List Nat}
    (hperm : order.Perm (List.range (S / N))) (a b : BitVec S) : operationText N b order a = pcmpgt N a b := by
  refine eq_of_lanes N hN hS fun j hj => ?_
  rw [lane_pcmpgt N j a b hN hj]
  exact lane_foldl_setLane_of_perm (fun k x => gtLane x (lane N k b)) hperm hj a

/-- The Operation text on one register, in any order of its lanes, is zero (40_pcmpgt.md R79). -/
theorem operationTextSame_eq_zero {N S : Nat} (hN : 0 < N) (hS : N * (S / N) = S) {order : List Nat}
    (hperm : order.Perm (List.range (S / N))) (a : BitVec S) : operationTextSame N order a = 0 := by
  refine eq_of_lanes N hN hS fun j hj => ?_
  rw [lane_zero, ← gtLane_self (lane N j a)]
  exact lane_foldl_setLane_of_perm (fun _ x => gtLane x x) hperm hj a

end Sys2Proof.Machine

namespace Sys2Proof.Proofs
open Sys2Proof.Machine

/-- Settles O16: a statement reads and writes its own lane only, so that the order of the lanes does not matter. -/
theorem operationTextInAnyLaneOrderIsThePackedCompare : Obligations.OperationTextInAnyLaneOrderIsThePackedCompare := by
  unfold Obligations.OperationTextInAnyLaneOrderIsThePackedCompare
  intro N S hN hS order hperm a b
  have hlanes : N * (S / N) = S := hN.mul_div_self hS
  exact ⟨operationText_eq_pcmpgt hN.pos hlanes hperm a b, operationTextSame_eq_zero hN.pos hlanes hperm a⟩

/-- Settles O17: the first three properties lane by lane, the fourth as two parts of whole lanes, the fifth by evaluation. -/
theorem packedCompareProperties : Obligations.PackedCompareProperties := by
  unfold Obligations.PackedCompareProperties
  refine ⟨fun N S hN hS a b => ⟨fun k hk => ?_, pcmpgt_self hN.pos (hN.mul_div_self hS) a, fun k hk => ?_⟩,
    fun N hN a b => ?_, by decide, by decide, by decide⟩
  · rw [lane_pcmpgt N k a b hN.pos hk]
    exact gtLane_eq_allOnes_or_zero _ _
  · rw [lane_pcmpgt N k a b hN.pos hk, lane_pcmpgt N k b a hN.pos hk]
    exact ⟨not_gtLane_both hN.pos _ _, gtLane_zero_both_iff hN.pos _ _⟩
  · have h64 : N * (64 / N) = 64 := hN.mul_div_self (.inl rfl)
    have h128 : 64 / N + 64 / N ≤ 128 / N := by rcases hN with rfl | rfl | rfl <;> decide
    have hlow := extractLsb'_pcmpgt (m := 0) hN.pos h64 ((Nat.zero_add _).trans_le (Nat.le_of_add_right_le h128)) a b
    have hhigh := extractLsb'_pcmpgt (m := 64 / N) hN.pos h64 h128 a b
    rw [h64] at hhigh
    exact ⟨hlow, hhigh⟩

end Sys2Proof.Proofs
end

section
/-! The forms' results (40_pcmpgt.md R71 to R79, 70_reset_and_hazards.md R122): a form that is ready, with a source operand
that can be read, completes with the packed compare. -/

namespace Sys2Proof.Machine

/-- The width an instruction names is an element width (30_encoding.md R51). -/
theorem elementWidth_widthBits (width : Width) : ElementWidth (widthBits width) := by
  cases width
  · exact .inl rfl
  · exact .inr (.inl rfl)
  · exact .inr (.inr rfl)

/-- The packed compare is, lane by lane, what the claims say of a result. -/
theorem pcmpgt_lanesGreater {S N : Nat} (hN : 0 < N) (a b : BitVec S) : LanesGreater N a b (pcmpgt N a b) :=
  fun k hk => lane_pcmpgt N k a b hN hk

/-- A ready 64-bit form whose source operand can be read completes with the packed compare (40_pcmpgt.md R71). -/
theorem exec_of_source64Is {i : Instr} {s : State} {v : MmWord} (hsize : i.size = .s64) (hready : Ready .s64 s)
    (hsrc : Source64Is s i v) :
    exec i s =
      .next (complete64 i.dst (pcmpgt (widthBits i.width) (s.getMm i.dst) v) (lengthOf i.lead i.src) s) := by
  rw [exec_of_s64 hsize, run64, preChecks_none_iff.mpr hready, source64, source_of_is (by decide) rfl hsrc]
  rfl

/-- A ready 128-bit form whose source operand can be read completes with the packed compare (40_pcmpgt.md R71). -/
theorem exec_of_source128Is {i : Instr} {s : State} {v : XmmWord} (hsize : i.size = .s128) (hready : Ready .s128 s)
    (hsrc : Source128Is s i v) :
    exec i s =
      .next (complete128 i.dst (pcmpgt (widthBits i.width) (s.getXmm i.dst) v) (lengthOf i.lead i.src) s) := by
  rw [exec_of_s128 hsize, run128, preChecks_none_iff.mpr hready, source128, source_of_is (by decide) rfl hsrc]
  rfl

/-- Completing a 64-bit form advances `pc` by its length and keeps its frame. -/
theorem completed_complete64 {i : Instr} (hsize : i.size = .s64) (r : MmWord) (s : State) :
    Completed i s (complete64 i.dst r (lengthOf i.lead i.src) s) :=
  ⟨rfl, by rw [hsize]; exact complete64_frame _ _ _ _⟩

/-- Completing a 128-bit form advances `pc` by its length and keeps its frame. -/
theorem completed_complete128 {i : Instr} (hsize : i.size = .s128) (r : XmmWord) (s : State) :
    Completed i s (complete128 i.dst r (lengthOf i.lead i.src) s) :=
  ⟨rfl, by rw [hsize]; exact complete128_frame _ _ _ _⟩

/-- A source register is a source operand with its content as value. -/
theorem sourceIs_of_reg {w n : Nat} {file : RegNum → BitVec w} {s : State} {lead : List Lead} {src : Src} {r : RegNum}
    (h : src = .reg r) : SourceIs n file s lead src (file r) := by
  subst h
  exact ⟨r, rfl, rfl⟩

end Sys2Proof.Machine

namespace Sys2Proof.Proofs
open Sys2Proof.Machine

/-- Settles O18. -/
theorem every64BitFormCompletesWithItsResult : Obligations.Every64BitFormCompletesWithItsResult := by
  unfold Obligations.Every64BitFormCompletesWithItsResult
  intro i s v hsize hready hsrc
  refine ⟨_, exec_of_source64Is hsize hready hsrc, ?_, completed_complete64 hsize _ s⟩
  rw [complete64_getMm_self]
  exact pcmpgt_lanesGreater (elementWidth_widthBits i.width).pos _ v

/-- Settles O19. -/
theorem every128BitFormCompletesWithItsResult : Obligations.Every128BitFormCompletesWithItsResult := by
  unfold Obligations.Every128BitFormCompletesWithItsResult
  intro i s v hsize hready hsrc
  refine ⟨_, exec_of_source128Is hsize hready hsrc, ?_, completed_complete128 hsize _ s⟩
  rw [complete128_getXmm_self]
  exact pcmpgt_lanesGreater (elementWidth_widthBits i.width).pos _ v

/-- Settles O20: the source operand's value is the destination's own, and a vector compared with itself is zero. -/
theorem sameRegisterGivesAllZeros : Obligations.SameRegisterGivesAllZeros := by
  unfold Obligations.SameRegisterGivesAllZeros
  intro i s hsrc hready
  have hN : ElementWidth (widthBits i.width) := elementWidth_widthBits i.width
  cases hsize : i.size with
  | s64 =>
    rw [hsize] at hready
    refine ⟨_, exec_of_source64Is hsize hready (sourceIs_of_reg hsrc), completed_complete64 hsize _ s, ?_⟩
    exact (complete64_getMm_self _ _ _ s).trans (pcmpgt_self hN.pos (hN.mul_div_self (.inl rfl)) _)
  | s128 =>
    rw [hsize] at hready
    refine ⟨_, exec_of_source128Is hsize hready (sourceIs_of_reg hsrc), completed_complete128 hsize _ s, ?_⟩
    exact (complete128_getXmm_self _ _ _ s).trans (pcmpgt_self hN.pos (hN.mul_div_self (.inr rfl)) _)

end Sys2Proof.Proofs
end

section
/-! The exceptions of the group (60_exceptions.md R92 to R110): which check raises which of them, what a raise leaves behind,
what a completed form wrote, and what executing a form again gives. -/

namespace Sys2Proof.Machine

/-! The checks before the operand, one exception at a time. -/

/-- #UD comes first: EM, then OSFXSR for a 128-bit form (60_exceptions.md R92, R93, R107). -/
theorem preChecks_ud_iff {size : OpSize} {s : State} :
    preChecks size s = some .ud ↔ s.cr0em = true ∨ size = .s128 ∧ s.cr4osfxsr = false := by
  rcases preChecks_cases size s with ⟨hem, h⟩ | ⟨-, hsize, hfxsr, h⟩ | ⟨hem, hfxsr, -, h⟩ | ⟨hem, -, rfl, -, -, h⟩ |
    ⟨hem, -, hfxsr, -, h⟩ <;> rw [h]
  · simp [hem]
  · simp [hsize, hfxsr]
  · simpa [hem] using hfxsr
  · simp [hem]
  · simpa [hem] using hfxsr

/-- #NM comes after #UD (60_exceptions.md R95, R107). -/
theorem preChecks_nm_iff {size : OpSize} {s : State} :
    preChecks size s = some .nm ↔ s.cr0ts = true ∧ s.cr0em = false ∧ (size = .s128 → s.cr4osfxsr = true) := by
  rcases preChecks_cases size s with ⟨hem, h⟩ | ⟨-, hsize, hfxsr, h⟩ | ⟨hem, hfxsr, hts, h⟩ | ⟨-, hts, -, -, -, h⟩ |
    ⟨-, hts, -, -, h⟩ <;> rw [h]
  · simp [hem]
  · simp [hsize, hfxsr]
  · exact iff_of_true rfl ⟨hts, hem, hfxsr⟩
  · simp [hts]
  · simp [hts]

/-- #MF comes after #UD and #NM, for 64-bit forms alone (60_exceptions.md R96, R107). -/
theorem preChecks_mf_iff {size : OpSize} {s : State} :
    preChecks size s = some .mf ↔ size = .s64 ∧ MfReported s ∧ s.cr0em = false ∧ s.cr0ts = false := by
  rcases preChecks_cases size s with ⟨hem, h⟩ | ⟨-, hsize, -, h⟩ | ⟨-, -, hts, h⟩ |
    ⟨hem, hts, hsize, hpending, hmode, h⟩ | ⟨-, -, -, hmf, h⟩ <;> rw [h]
  · simp [hem]
  · simp [hsize]
  · simp [hts]
  · exact iff_of_true rfl ⟨hsize, ⟨hpending, hmode⟩, hem, hts⟩
  · exact iff_of_false (Option.some_ne_none _).symm fun ⟨hsize, hreported, _⟩ => hmf hsize hreported

/-- The checks before the operand raise #UD, #NM, or #MF of a 64-bit form, and nothing else (60_exceptions.md R107). -/
theorem preChecks_some {size : OpSize} {s : State} {e : Exn} (h : preChecks size s = some e) :
    e = .ud ∨ e = .nm ∨ e = .mf ∧ size = .s64 := by
  rcases preChecks_cases size s with ⟨-, hpre⟩ | ⟨-, -, -, hpre⟩ | ⟨-, -, -, hpre⟩ | ⟨-, -, hsize, -, -, hpre⟩ |
    ⟨-, -, -, -, hpre⟩ <;> cases hpre.symm.trans h
  · exact .inl rfl
  · exact .inl rfl
  · exact .inr (.inl rfl)
  · exact .inr (.inr ⟨rfl, hsize⟩)

/-! The exceptions of the memory operand. -/

/-- The exceptions that reading a memory operand in a segment can raise: #GP, #SS in SS in Protected mode, and #PF outside
RealAddress mode (20_memory.md R36, 60_exceptions.md R97 to R102). -/
def OperandRaisable (s : State) (seg : Seg) : Exn → Prop
  | .ud => False
  | .nm => False
  | .mf => False
  | .gp => True
  | .ss => s.cfg.mode = .protectedMode ∧ seg = .ss
  | .pf _ => s.cfg.mode ≠ .realAddress

/-- What the checked read raises is the fault of one of its first three steps (20_memory.md R36). -/
theorem operandRead_raises {w n : Nat} {s : State} {seg : Seg} {ea : Dword} {e : Exn}
    (h : operandRead w s seg ea n = .raises e) :
    rangeFault s seg ea n = some e ∨ alignFault s seg ea n = some e ∨ pageFault s (linear s seg ea) n = some e := by
  rcases operandRead_cases w s seg ea n with ⟨-, hread⟩ | ⟨-, e', hreport, hread⟩ | ⟨-, -, -, e', hpage, hread⟩ |
    ⟨-, -, -, -, hread⟩ <;> rw [hread] at h
  · cases h
  · cases h
    exact (reportFault_some hreport).imp_right .inl
  · cases h
    exact .inr (.inr hpage)
  · rcases operandValue_cases w s (linear s seg ea) n with ⟨-, hv⟩ | ⟨-, ⟨v, -, hv⟩ | ⟨-, hv⟩⟩ <;> cases hv.symm.trans h

/-- The checked read raises only the exceptions of a memory operand (60_exceptions.md R102). -/
theorem operandRaisable_of_operandRead {w n : Nat} {s : State} {seg : Seg} {ea : Dword} {e : Exn}
    (h : operandRead w s seg ea n = .raises e) : OperandRaisable s seg e := by
  rcases operandRead_raises h with hrange | halign | hpage
  · rcases rangeFault_some hrange with ⟨rfl, hseg, hmode⟩ | rfl
    · exact ⟨hmode, hseg⟩
    · exact trivial
  · obtain ⟨rfl, -, -⟩ := alignFault_some halign
    exact trivial
  · obtain ⟨hmode, p, -, rfl⟩ := pageFault_some hpage
    exact hmode

/-- A source operand that raises is a memory operand and raises one of its exceptions: a register raises none. -/
theorem operandRaisable_of_source {w n : Nat} {s : State} {file : RegNum → BitVec w} {lead : List Lead} {src : Src} {e : Exn}
    (h : source w n s file lead src = .raises e) :
    ∃ seg ea, memOperand s lead src = some (seg, ea) ∧ OperandRaisable s seg e := by
  cases src with
  | reg r => cases h
  | mem32 a => exact ⟨_, _, rfl, operandRaisable_of_operandRead h⟩
  | mem16 a => exact ⟨_, _, rfl, operandRaisable_of_operandRead h⟩

/-! A form that raised, and a form that completed. -/

/-- A form that leaves an exception where none was recorded did nothing but raise it, by the checks before the operand or by
the read of a memory operand (60_exceptions.md R107, R108). -/
theorem exec_raised {i : Instr} {s t : State} {r : Raised} (hnone : s.fault = none) (h : exec i s = .next t)
    (hfault : t.fault = some r) :
    ∃ e, r = ⟨e, s.pc⟩ ∧ t = raise e s ∧
      (preChecks i.size s = some e ∨ ∃ seg ea, memOperand s i.lead i.src = some (seg, ea) ∧ OperandRaisable s seg e) := by
  rcases exec_next_cases h with ⟨e, rfl, hcause⟩ | ⟨-, -, b, -, rfl⟩ | ⟨-, -, b, -, rfl⟩
  · refine ⟨e, (Option.some.inj hfault).symm, rfl, hcause.imp_right fun ⟨_, hsrc⟩ => ?_⟩
    rcases hsrc with ⟨-, hsrc⟩ | ⟨-, hsrc⟩
    · exact operandRaisable_of_source hsrc
    · exact operandRaisable_of_source hsrc
  · cases hnone.symm.trans hfault
  · cases hnone.symm.trans hfault

/-- An exception a form raises comes from the checks before the operand or from the read of a memory operand. -/
theorem Raises.cause {i : Instr} {s : State} {e : Exn} (hnone : s.fault = none) (h : Raises i s e) :
    preChecks i.size s = some e ∨ ∃ seg ea, memOperand s i.lead i.src = some (seg, ea) ∧ OperandRaisable s seg e := by
  obtain ⟨t, hexec, htook⟩ := h
  obtain ⟨e', he, -, hcause⟩ := exec_raised hnone hexec htook.fault
  cases he
  exact hcause

/-- An exception that no memory operand raises is raised exactly when the checks before the operand report it
(60_exceptions.md R107). -/
theorem raises_iff_preChecks {i : Instr} {s : State} {e : Exn} (hnone : s.fault = none)
    (he : ∀ seg, ¬ OperandRaisable s seg e) : Raises i s e ↔ preChecks i.size s = some e :=
  ⟨fun h => (h.cause hnone).resolve_right fun ⟨seg, _, _, hraisable⟩ => he seg hraisable, raises_of_preChecks⟩

/-- A form that leaves no exception recorded passed the checks before its operand. -/
theorem ready_of_completes {i : Instr} {s t : State} (h : exec i s = .next t) (hfault : t.fault = none) :
    Ready i.size s := by
  rcases exec_next_cases h with ⟨e, rfl, -⟩ | ⟨hsize, hpre, -⟩ | ⟨hsize, hpre, -⟩
  · cases hfault
  · rw [hsize]; exact preChecks_none_iff.mp hpre
  · rw [hsize]; exact preChecks_none_iff.mp hpre

/-- What a completed 64-bit form wrote is the packed compare of its operands' values (40_pcmpgt.md R71). -/
theorem completes_getMm_dst {i : Instr} {s t : State} {v : MmWord} (h : exec i s = .next t) (hfault : t.fault = none)
    (hsize : i.size = .s64) (hsrc : Source64Is s i v) :
    t.getMm i.dst = pcmpgt (widthBits i.width) (s.getMm i.dst) v := by
  have hready : Ready .s64 s := hsize ▸ ready_of_completes h hfault
  cases h.symm.trans (exec_of_source64Is hsize hready hsrc)
  exact complete64_getMm_self _ _ _ s

/-- What a completed 128-bit form wrote is the packed compare of its operands' values (40_pcmpgt.md R71). -/
theorem completes_getXmm_dst {i : Instr} {s t : State} {v : XmmWord} (h : exec i s = .next t) (hfault : t.fault = none)
    (hsize : i.size = .s128) (hsrc : Source128Is s i v) :
    t.getXmm i.dst = pcmpgt (widthBits i.width) (s.getXmm i.dst) v := by
  have hready : Ready .s128 s := hsize ▸ ready_of_completes h hfault
  cases h.symm.trans (exec_of_source128Is hsize hready hsrc)
  exact complete128_getXmm_self _ _ _ s

/-! Executing again: the state a handler leaves is the one before the fault, one draw of free values later. -/

/-- Apart from the draw, nothing of a dealt-with exception is left once its cause is cleared (60_exceptions.md R110). -/
theorem Cure.apply_clearRaised_raise (c : Cure) (e : Exn) {s : State} (hnone : s.fault = none) :
    c.apply (raise e s).clearRaised = (c.apply s).tick := by
  simp only [Cure.apply, State.clearRaised, raise, State.record, State.tick, hnone]

/-- Step 4 of the checked read uses no draw. -/
theorem operandValue_tick (w : Nat) (s : State) (lin : Dword) (n : Nat) :
    operandValue w s.tick lin n = operandValue w s lin n := by
  have hread : memRead w s.tick lin n = memRead w s lin n :=
    readLE_congr (s := s) (t := s.tick) (fun _ => rfl) w (operandAddrs lin n)
  simp only [operandValue, State.tick_cfg, hread]

/-- A memory operand that can be read is read as the same value at any draw: a draw only selects between faults. -/
theorem operandRead_tick_of_value {w n : Nat} {s : State} {seg : Seg} {ea : Dword} {b : BitVec w}
    (h : operandRead w s seg ea n = .value b) : operandRead w s.tick seg ea n = .value b := by
  have hseg : s.tick.seg seg = s.seg seg := seg_congr rfl seg
  have hlin : linear s.tick seg ea = linear s seg ea := by rw [linear, linear, hseg]
  rcases operandRead_cases w s seg ea n with ⟨-, hread⟩ | ⟨-, e, -, hread⟩ | ⟨-, -, -, e, -, hread⟩ |
    ⟨hplain, hrange, halign, hpage, hread⟩
  · cases hread.symm.trans h
  · cases hread.symm.trans h
  · cases hread.symm.trans h
  · have hrange' : rangeFault s.tick seg ea n = none := by
      simpa only [rangeFault, State.tick_cfg, hseg] using hrange
    have halign' : alignFault s.tick seg ea n = none := by simpa only [alignFault, hlin] using halign
    have hpage' : pageFault s.tick (linear s.tick seg ea) n = none := by rw [hlin]; exact hpage
    calc operandRead w s.tick seg ea n
      _ = operandValue w s.tick (linear s.tick seg ea) n := operandRead_of_checks hplain hrange' halign' hpage'
      _ = operandValue w s (linear s seg ea) n := by rw [operandValue_tick, hlin]
      _ = .value b := hread.symm.trans h

/-- A source operand that can be read is read as the same value at any draw. -/
theorem source_tick_of_value {w n : Nat} {s : State} {file : RegNum → BitVec w} {lead : List Lead} {src : Src} {b : BitVec w}
    (h : source w n s file lead src = .value b) : source w n s.tick file lead src = .value b := by
  cases src with
  | reg r => exact h
  | mem32 a => exact operandRead_tick_of_value h
  | mem16 a => exact operandRead_tick_of_value h

/-- A form that completes also completes at the next draw, with the same registers, `pc` and rest; only the x87
bookkeeping, which is free, may differ (10_state.md R17). -/
theorem exec_tick_of_completes {i : Instr} {s u : State} (h : exec i s = .next u) (hfault : u.fault = none) :
    ∃ u', exec i s.tick = .next u' ∧ u'.mm = u.mm ∧ u'.xmm = u.xmm ∧ u'.pc = u.pc ∧ u'.fault = none ∧ KeepsRest u u' := by
  rcases exec_next_cases h with ⟨e, rfl, -⟩ | ⟨hsize, hpre, b, hsrc, rfl⟩ | ⟨hsize, hpre, b, hsrc, rfl⟩
  · cases hfault
  · have hpre' : preChecks .s64 s.tick = none := hpre
    have hsrc' : source64 s.tick i.lead i.src = .value b := source_tick_of_value hsrc
    rw [exec_of_s64 hsize, run64, hpre', hsrc']
    exact ⟨_, rfl, rfl, rfl, rfl, hfault, ⟨rfl, rfl, rfl, rfl, rfl, rfl, rfl, rfl, rfl, fun _ => rfl, rfl, rfl⟩⟩
  · have hpre' : preChecks .s128 s.tick = none := hpre
    have hsrc' : source128 s.tick i.lead i.src = .value b := source_tick_of_value hsrc
    rw [exec_of_s128 hsize, run128, hpre', hsrc']
    exact ⟨_, rfl, rfl, rfl, rfl, hfault, ⟨rfl, rfl, rfl, rfl, rfl, rfl, rfl, rfl, rfl, fun _ => rfl, rfl, rfl⟩⟩

end Sys2Proof.Machine

namespace Sys2Proof.Proofs
open Sys2Proof.Machine

/-- Settles O22: the next state is the old one with the exception taken. -/
theorem raisingChangesNoArchitecturalState : Obligations.RaisingChangesNoArchitecturalState := by
  unfold Obligations.RaisingChangesNoArchitecturalState
  intro i s t r hnone hexec hfault
  obtain ⟨e, rfl, rfl, -⟩ := exec_raised hnone hexec hfault
  have htook := raise_took e s
  exact ⟨getMm_congr htook.mm, getXmm_congr htook.xmm, htook.pc, rfl, htook.x87, htook.rest⟩

/-- Settles O23: both results are the packed compare of the same two values. -/
theorem resultDependsOnlyOnTheOperands : Obligations.ResultDependsOnlyOnTheOperands := by
  unfold Obligations.ResultDependsOnlyOnTheOperands
  intro i s s' t t' hexec hexec' _ _ hfault hfault'
  constructor
  · intro v hsize hdst hsrc hsrc'
    rw [completes_getMm_dst hexec hfault hsize hsrc, completes_getMm_dst hexec' hfault' hsize hsrc', hdst]
  · intro v hsize hdst hsrc hsrc'
    rw [completes_getXmm_dst hexec hfault hsize hsrc, completes_getXmm_dst hexec' hfault' hsize hsrc', hdst]

/-- Settles O26: of the two conditions of #UD, that on OSFXSR is of 128-bit forms only. -/
theorem ud64ExactlyWhenEmulationIsSet : Obligations.Ud64ExactlyWhenEmulationIsSet := by
  unfold Obligations.Ud64ExactlyWhenEmulationIsSet
  refine ⟨fun i s hsize hnone => ?_, rfl⟩
  rw [raises_iff_preChecks hnone fun _ => id, preChecks_ud_iff, hsize]
  simp

/-- Settles O27. -/
theorem ud128ExactlyWhenEmulationOrNoOsfxsr : Obligations.Ud128ExactlyWhenEmulationOrNoOsfxsr := by
  unfold Obligations.Ud128ExactlyWhenEmulationOrNoOsfxsr
  refine ⟨fun i s hsize hnone => ?_, rfl⟩
  rw [raises_iff_preChecks hnone fun _ => id, preChecks_ud_iff, hsize]
  simp

/-- Settles O28. -/
theorem nmExactlyWhenTaskSwitched : Obligations.NmExactlyWhenTaskSwitched := by
  unfold Obligations.NmExactlyWhenTaskSwitched
  exact ⟨fun i s hnone => (raises_iff_preChecks hnone fun _ => id).trans preChecks_nm_iff, rfl⟩

/-- Settles O29. -/
theorem mfExactlyFor64BitFormsWithPendingException : Obligations.MfExactlyFor64BitFormsWithPendingException := by
  unfold Obligations.MfExactlyFor64BitFormsWithPendingException
  exact ⟨fun i s hnone => (raises_iff_preChecks hnone fun _ => id).trans preChecks_mf_iff, rfl⟩

/-- Settles O34, for the exceptions of the checks before the operand and those of a memory operand in turn. -/
theorem onlyTheListedExceptionsAreRaised : Obligations.OnlyTheListedExceptionsAreRaised := by
  unfold Obligations.OnlyTheListedExceptionsAreRaised
  intro i s e hnone hraises
  rcases hraises.cause hnone with hpre | ⟨seg, ea, hmem, hraisable⟩
  · rcases preChecks_some hpre with rfl | rfl | ⟨rfl, hsize⟩
    · exact trivial
    · exact trivial
    · exact hsize
  · cases e with
    | ud => exact hraisable.elim
    | nm => exact hraisable.elim
    | mf => exact hraisable.elim
    | gp => exact ⟨seg, ea, hmem⟩
    | ss =>
      obtain ⟨hmode, rfl⟩ := hraisable
      exact ⟨hmode, ea, hmem⟩
    | pf code => exact ⟨hraisable, seg, ea, hmem⟩

/-- Settles O35: the second execution starts where one without the cause would, one draw of free values later. -/
theorem restartAfterTheCauseIsCleared : Obligations.RestartAfterTheCauseIsCleared := by
  unfold Obligations.RestartAfterTheCauseIsCleared
  intro i s t u r c hnone hexec hfault hcured hdone
  obtain ⟨e, -, rfl, -⟩ := exec_raised hnone hexec hfault
  rw [Cure.apply_clearRaised_raise c e hnone]
  exact exec_tick_of_completes hcured hdone

/-- Settles O40: the record is the first thing a step looks at. -/
theorem recordedExceptionIsTerminal : Obligations.RecordedExceptionIsTerminal := by
  unfold Obligations.RecordedExceptionIsTerminal
  intro s r hfault
  simp only [step, hfault]

end Sys2Proof.Proofs
end

section
/-! The end of a run (70_reset_and_hazards.md R121). -/

namespace Sys2Proof.Machine

/-- One past the last byte of the text there is nothing to fetch: the run is over (70_reset_and_hazards.md R121). -/
theorem fetch_of_finalState {s : State} (h : FinalState s) : fetch s = .error .endOfRun := if_pos h.1

/-- A step whose fetch finds no instruction stops with the fetch's fault. -/
theorem step_of_fetch_error {s : State} {f : Fault} (hfault : s.fault = none) (hlaunch : launchRefusal s = none)
    (hfetch : fetch s = .error f) : step s = .fault f := by
  simp only [step, hfault, hlaunch, hfetch]

end Sys2Proof.Machine

namespace Sys2Proof.Proofs
open Sys2Proof.Machine

/-- Settles O41: no record and no broken premise stops the step before its fetch, which finds the end. -/
theorem runEndsOnePastTheText : Obligations.RunEndsOnePastTheText := by
  unfold Obligations.RunEndsOnePastTheText
  intro s hfinal hlaunch
  exact step_of_fetch_error hfinal.2 (launchRefusal_none_iff.mpr hlaunch) (fetch_of_finalState hfinal)

end Sys2Proof.Proofs
end

section
/-! The launch parameter `CpuSignature`, which no step reads or writes (70_reset_and_hazards.md R127): every part of a step
against the same state with another signature. -/

namespace Sys2Proof.Machine

/-- The decoder reads the operating mode, the address size and `SSE2` of a launch, and not its signature. -/
theorem decode_withSignature (g : CpuSignature) (s : State) (bytes : List Byte) :
    decode (withSignature g s).cfg bytes = decode s.cfg bytes := rfl

/-- Step 4 of the checked read does not depend on the signature: the bytes come from memory and the launch's regions. -/
theorem operandValue_withSignature (w : Nat) (g : CpuSignature) (s : State) (lin : Dword) (n : Nat) :
    operandValue w (withSignature g s) lin n = operandValue w s lin n := by
  have hread : memRead w (withSignature g s) lin n = memRead w s lin n :=
    readLE_congr (s := s) (t := withSignature g s) (fun _ => rfl) w (operandAddrs lin n)
  rw [operandValue, operandValue, hread]
  rfl

/-- The checked read does not depend on the signature: its checks read the segment and the launch's other parameters. -/
theorem operandRead_withSignature (w : Nat) (g : CpuSignature) (s : State) (seg : Seg) (ea : Dword) (n : Nat) :
    operandRead w (withSignature g s) seg ea n = operandRead w s seg ea n := by
  have hseg : (withSignature g s).seg seg = s.seg seg := seg_congr rfl seg
  have hlin : linear (withSignature g s) seg ea = linear s seg ea := by rw [linear, linear, hseg]
  rw [operandRead, operandRead, hlin, operandValue_withSignature]
  rfl

/-- No source operand's value depends on the signature. -/
theorem source_withSignature {w n : Nat} (g : CpuSignature) (s : State) (file : RegNum → BitVec w) (lead : List Lead)
    (src : Src) : source w n (withSignature g s) file lead src = source w n s file lead src := by
  cases src with
  | reg r => rfl
  | mem32 a => exact operandRead_withSignature w g s _ _ n
  | mem16 a => exact operandRead_withSignature w g s _ _ n

/-- The checks before the operand read control bits, the pending bit and the mode, and not the signature. -/
theorem preChecks_withSignature (size : OpSize) (g : CpuSignature) (s : State) :
    preChecks size (withSignature g s) = preChecks size s := rfl

/-- No instruction's meaning depends on the signature (70_reset_and_hazards.md R127): completing and raising carry it along
and look at nothing of it. -/
theorem exec_withSignature (i : Instr) (g : CpuSignature) (s : State) :
    exec i (withSignature g s) = mapNext (withSignature g) (exec i s) := by
  cases hsize : i.size with
  | s64 =>
    have hsrc : source64 (withSignature g s) i.lead i.src = source64 s i.lead i.src :=
      source_withSignature g s s.getMm i.lead i.src
    rw [exec_of_s64 hsize, exec_of_s64 hsize, run64, run64, preChecks_withSignature, hsrc]
    exact runForm_mapNext (fun _ => rfl) fun _ => rfl
  | s128 =>
    have hsrc : source128 (withSignature g s) i.lead i.src = source128 s i.lead i.src :=
      source_withSignature g s s.getXmm i.lead i.src
    rw [exec_of_s128 hsize, exec_of_s128 hsize, run128, run128, preChecks_withSignature, hsrc]
    exact runForm_mapNext (fun _ => rfl) fun _ => rfl

/-- A change of the state that leaves what a step looks at before the instruction, and that every instruction's meaning
passes on, is passed on by the step. -/
theorem step_mapNext {f : State → State} {s : State} (hfault : (f s).fault = s.fault)
    (hlaunch : launchRefusal (f s) = launchRefusal s) (hfetch : fetch (f s) = fetch s)
    (hdecode : ∀ bytes, decode (f s).cfg bytes = decode s.cfg bytes)
    (hexec : ∀ i, exec i (f s) = mapNext f (exec i s)) : step (f s) = mapNext f (step s) := by
  simp only [step, hfault, hlaunch, hfetch, hdecode]
  cases s.fault with
  | some _ => rfl
  | none =>
    cases launchRefusal s with
    | some _ => rfl
    | none =>
      cases fetch s with
      | error _ => rfl
      | ok bytes =>
        dsimp only
        cases decode s.cfg bytes with
        | error _ => rfl
        | ok read => exact hexec read.1

end Sys2Proof.Machine

namespace Sys2Proof.Proofs
open Sys2Proof.Machine

/-- Settles O25: the record, the launch premises, the fetch, the decoder and the instruction's meaning in turn. -/
theorem cpuSignatureNeverMatters : Obligations.CpuSignatureNeverMatters := by
  unfold Obligations.CpuSignatureNeverMatters
  intro s g
  exact step_mapNext rfl rfl rfl (decode_withSignature g s) fun i => exec_withSignature i g s

end Sys2Proof.Proofs
end

section
/-! The launch premises and the state after reset (70_reset_and_hazards.md R122, R123, 10_state.md section 10): a launch that
breaks a premise stops at its first step, and reset's own launch breaks none. -/

namespace Sys2Proof.Machine

/-- A launch that does not meet the premises has a refusal that names a broken one (70_reset_and_hazards.md R123). -/
theorem exists_launchRefusal_of_not_launchOk {s : State} (h : ¬ LaunchOk s) : ∃ r, launchRefusal s = some r :=
  Option.ne_none_iff_exists'.mp fun hnone => h (launchRefusal_none_iff.mp hnone)

/-- With no exception recorded, a step of a refused launch answers the launch's refusal. -/
theorem step_of_launchRefusal {s : State} {r : Refusal} (hfault : s.fault = none) (hlaunch : launchRefusal s = some r) :
    step s = .refused r := by
  simp only [step, hfault, hlaunch]

/-- Reset records no exception. -/
@[simp] theorem reset_fault : State.reset.fault = none := rfl

/-- After reset every segment is flat. -/
@[simp] theorem reset_seg (g : Seg) : State.reset.seg g = Segment.flat := by cases g <;> rfl

/-- A flat segment's base is 16 times a segment register, the zero one (20_memory.md R35). -/
theorem realBase_flat : RealBase Segment.flat := ⟨rfl, Nat.zero_le _⟩

/-- Reset's launch meets the premises: each is set, and the empty text lies inside the flat code segment. -/
theorem launchOk_reset : LaunchOk State.reset where
  noAlignmentCheck := rfl
  singleWriter := rfl
  textFetchable := rfl
  noDebug := rfl
  noInterrupts := rfl
  insideLimit := Nat.zero_le _
  belowTop := Nat.two_pow_pos 32

/-- After reset no x87 exception is pending, so none is reported (60_exceptions.md R96). -/
theorem not_mfReported_reset : ¬ MfReported State.reset := fun ⟨hpending, _⟩ => Bool.false_ne_true hpending

/-- After reset the control bits let the forms of either operand size run (70_reset_and_hazards.md R122). -/
theorem ready_reset (size : OpSize) : Ready size State.reset := by
  cases size with
  | s64 => exact ⟨rfl, rfl, not_mfReported_reset⟩
  | s128 => exact ⟨rfl, rfl, rfl⟩

end Sys2Proof.Machine

namespace Sys2Proof.Proofs
open Sys2Proof.Machine

/-- Settles O42: the broken premise's refusal is what the step answers, before it fetches anything. -/
theorem brokenLaunchPremiseIsRefused : Obligations.BrokenLaunchPremiseIsRefused := by
  unfold Obligations.BrokenLaunchPremiseIsRefused
  intro s hfault hbroken
  obtain ⟨r, hlaunch⟩ := exists_launchRefusal_of_not_launchOk hbroken
  exact ⟨r, step_of_launchRefusal hfault hlaunch⟩

/-- Settles O44: the empty memory is canonical, the flat bases are ones real mode can have, whatever the mode, and no
exception is recorded. -/
theorem resetMeetsTheInvariant : Obligations.ResetMeetsTheInvariant := by
  unfold Obligations.ResetMeetsTheInvariant
  refine inv_iff.mpr ⟨reset_mem_wf, fun _ seg => ?bases, fun r hr => ?recorded⟩
  case bases => rw [reset_seg]; exact realBase_flat
  case recorded => cases reset_fault.symm.trans hr

/-- Settles O45: the premises of reset's launch, and readiness at each operand size. -/
theorem resetIsReadyForEveryForm : Obligations.ResetIsReadyForEveryForm :=
  ⟨launchOk_reset, ready_reset .s64, ready_reset .s128⟩

end Sys2Proof.Proofs
end
